-- ==== Sys2Proof/Word.lean ====
section
/-! DEFINITION. The widths of the hardware (00_scope R8, R10): the 64-bit word, the byte, the 48-bit payload,
the five string lanes of a request. -/

namespace Sys2Proof

/-- A TaggedValue word, "Physically a 64-bit word; logically a tagged union" (R30). -/
abbrev Word := BitVec 64

/-- One byte: a string byte, a lane, a byte of the caller's memory (R11, R12). -/
abbrev Byte := BitVec 8

/-- The low 48 bits of a word (R11 `PAYLOAD`), and the six lanes of `s_out` (R26). -/
abbrev Payload := BitVec 48

/-- The five byte lanes of `s_in` (R25): lane i holds string byte i. -/
abbrev Lanes := Vector Byte 5

end Sys2Proof
end

