-- ==== Sys2Proof/Config.lean ====
section
/-! DEFINITION. What the spec leaves open and what an implementation fixes: constants WITHOUT a body, so that no
proof can lean on a value of one. -/

namespace Sys2Proof

/-- The two byte orders a host may have (R8 HOST_ENDIAN). -/
inductive Endian where
  | le
  | be
  deriving DecidableEq, Repr, Inhabited

/-- HOST_ENDIAN, the `OPEN` parameter of R8 and D11. The reset state takes it; every state carries its own value,
which no step changes (R23). Log 6. -/
opaque Config.hostEndian : Endian

/-- `resp.r <- any(64)` of a contract violation (R132): the n-th draw. Log 3. -/
opaque Config.drawR : Nat → Word

/-- `resp.s_out <- any(48)` of a contract violation (R132): the n-th draw. Log 3. -/
opaque Config.drawSOut : Nat → Payload

/-- What the host adapter leaves on a lane it did not load, "any value (not read by the block)" (R51): the n-th
draw, by lane. Log 10. -/
opaque Config.freeLane : Nat → Nat → Byte

/-- Which requester moves next, "in an order the model leaves open" (R171, U13): the n-th draw. Log 11. -/
opaque Config.schedule : Nat → Nat

/-- The host's conversion of the text between the brackets of `f64(<decimal>)` to a 64-bit pattern (R87), for a number
that binary64 does not hold exactly: it lies outside the block (R7, D27, U12). Log 20. -/
opaque Config.f64Pattern : List Char → Word

end Sys2Proof
end

