-- ==== Sys2Proof/Syntax.lean ====
section
/-! DEFINITION. The operations: one constructor per row of spec/opcode_table.json, in the table's order (R82), each
with the operands it takes from the request (R81). A field an operation does not read is no operand (R84). -/

namespace Sys2Proof

/-- The fifteen operations (R82) and the table's reserved row (R83). -/
inductive Instr where
  /-- `enc.double`, op 0x0, R101. -/
  | encDouble (a : Word)
  /-- `enc.null`, op 0x1, R102. -/
  | encNull
  /-- `enc.undef`, op 0x2, R103. -/
  | encUndef
  /-- `enc.empty`, op 0x3, R104. -/
  | encEmpty
  /-- `enc.bool`, op 0x4, R105. -/
  | encBool (a : Word)
  /-- `enc.int`, op 0x5, R106. -/
  | encInt (a : Word)
  /-- `enc.str`, op 0x6, R107: the number of valid lanes, and the five lanes. -/
  | encStr (sAvail : BitVec 3) (sIn : Lanes)
  /-- `enc.custom`, op 0x7, R108. -/
  | encCustom (a : Word)
  /-- `enc.raw`, op 0x8, R109. -/
  | encRaw (a : Word)
  /-- `classify`, op 0x9, R131. -/
  | classify (a : Word)
  /-- `as.bool`, op 0xA, R133. -/
  | asBool (a : Word)
  /-- `as.int`, op 0xB, R134. -/
  | asInt (a : Word)
  /-- `as.custom`, op 0xC, R135. -/
  | asCustom (a : Word)
  /-- `as.str`, op 0xD, R136. -/
  | asStr (a : Word)
  /-- `as.raw`, op 0xE, R137. -/
  | asRaw (a : Word)
  /-- `(reserved)`, ILLEGAL_REQUEST, R83: op 0xF, or any op with a reserved bit set. It keeps the two fields that
  make the request illegal (log 15). -/
  | reserved (op : BitVec 4) (rsv : BitVec 17)
  deriving DecidableEq, Repr

end Sys2Proof
end

