-- ==== Sys2Proof/WellFormed.lean ====
section
/-! DEFINITION. Which terms of `Instr` stand for a request of R80 at all. -/

namespace Sys2Proof

/-- Every operand of the fifteen operations may take any value ("No request is illegal because of its operands",
R83). The reserved row stands for an illegal request: op 0xF, or a reserved bit that is set. -/
def Instr.wf : Instr → Bool
  | .encDouble _ => true
  | .encNull => true
  | .encUndef => true
  | .encEmpty => true
  | .encBool _ => true
  | .encInt _ => true
  | .encStr _ _ => true
  | .encCustom _ => true
  | .encRaw _ => true
  | .classify _ => true
  | .asBool _ => true
  | .asInt _ => true
  | .asCustom _ => true
  | .asStr _ => true
  | .asRaw _ => true
  | .reserved op rsv => op == 0xF#4 || rsv != 0#17

end Sys2Proof
end

