-- ==== Sys2Proof/Decode.lean ====
section
/-! DEFINITION. The request format (30_encoding R80 to R85): the request bundle, its packing in two 64-bit halves,
the decoder and after it the encoder, and the opcode table. -/

namespace Sys2Proof

/-- The request bundle (R25). -/
structure Request where
  /-- operation code (R82) -/
  op : BitVec 4
  /-- operand word -/
  a : Word
  /-- number of valid string lanes; 6 and 7 read as 5 -/
  sAvail : BitVec 3
  /-- the five string byte lanes -/
  sIn : Lanes
  /-- the reserved bits, which must be zero -/
  rsv : BitVec 17
  deriving DecidableEq, Repr

/-- Lane i of `s_in` stands at REQ_LO bits `16+8*i+7 : 16+8*i` (R80). -/
def laneOfLo (lo : Word) (i : Nat) : Byte := lo.extractLsb' (16 + 8 * i) 8

/-- The 17 reserved bits of REQ_LO (R80), taken as 63:56, then 15:11, then 7:4, the highest first (log 13). -/
def rsvOfLo (lo : Word) : BitVec 17 :=
  (lo.extractLsb' 56 8 ++ lo.extractLsb' 11 5 ++ lo.extractLsb' 4 4).cast rfl

/-- The request bundle that the halves REQ_HI and REQ_LO carry (R80). -/
def Request.unpack (hi lo : Word) : Request :=
  { op := lo.extractLsb' 0 4
    a := hi
    sAvail := lo.extractLsb' 8 3
    sIn := #v[laneOfLo lo 0, laneOfLo lo 1, laneOfLo lo 2, laneOfLo lo 3, laneOfLo lo 4]
    rsv := rsvOfLo lo }

/-- REQ_HI holds the operand `a` (R80). -/
def Request.hi (q : Request) : Word := q.a

/-- The five lanes side by side, lane 4 the highest: the 40 bits of `s_in` (R25). -/
def Lanes.bits (l : Lanes) : BitVec 40 := (l[4] ++ l[3] ++ l[2] ++ l[1] ++ l[0]).cast rfl

/-- REQ_LO holds the rest (R80): rsv, s_in, rsv, s_avail, rsv, op from bit 63 down. -/
def Request.lo (q : Request) : Word :=
  (q.rsv.extractLsb' 9 8 ++ Lanes.bits q.sIn ++ q.rsv.extractLsb' 4 5 ++ q.sAvail ++ q.rsv.extractLsb' 0 4
    ++ q.op).cast rfl

/-- The packed request as one number, REQ_HI above REQ_LO: bit 0 is REQ_LO bit 0 (log 14). -/
def Request.bits (q : Request) : BitVec 128 := (q.hi ++ q.lo).cast rfl

/-- The request that 128 packed bits carry. -/
def Request.ofBits (w : BitVec 128) : Request := Request.unpack (w.extractLsb' 64 64) (w.extractLsb' 0 64)

/-- R83: the request is illegal. -/
def Request.illegal (q : Request) : Bool := q.op == 0xF#4 || q.rsv != 0#17

/-- The decoder, total on every request: the operation map (R82) behind the illegal-request check (R83). -/
def decode (q : Request) : Instr :=
  if q.illegal then .reserved q.op q.rsv
  else
    match q.op.toNat with
    | 0x0 => .encDouble q.a
    | 0x1 => .encNull
    | 0x2 => .encUndef
    | 0x3 => .encEmpty
    | 0x4 => .encBool q.a
    | 0x5 => .encInt q.a
    | 0x6 => .encStr q.sAvail q.sIn
    | 0x7 => .encCustom q.a
    | 0x8 => .encRaw q.a
    | 0x9 => .classify q.a
    | 0xA => .asBool q.a
    | 0xB => .asInt q.a
    | 0xC => .asCustom q.a
    | 0xD => .asStr q.a
    | 0xE => .asRaw q.a
    | _ => .reserved q.op q.rsv

/-- The decoder on packed bits. -/
def decodeBits (w : BitVec 128) : Instr := decode (Request.ofBits w)

/-- The lanes of a request that carries no string: zero, as 95_test_vectors packs them. -/
def noLanes : Lanes := #v[0#8, 0#8, 0#8, 0#8, 0#8]

/-- A legal request with only an op code and an operand word. -/
def Request.word (op : BitVec 4) (a : Word) : Request :=
  { op := op, a := a, sAvail := 0#3, sIn := noLanes, rsv := 0#17 }

/-- The encoder: the request of an operation, every field it does not read zero (R81, R82, R84). -/
def encode : Instr → Request
  | .encDouble a => .word 0x0#4 a
  | .encNull => .word 0x1#4 0#64
  | .encUndef => .word 0x2#4 0#64
  | .encEmpty => .word 0x3#4 0#64
  | .encBool a => .word 0x4#4 a
  | .encInt a => .word 0x5#4 a
  | .encStr n l => { op := 0x6#4, a := 0#64, sAvail := n, sIn := l, rsv := 0#17 }
  | .encCustom a => .word 0x7#4 a
  | .encRaw a => .word 0x8#4 a
  | .classify a => .word 0x9#4 a
  | .asBool a => .word 0xA#4 a
  | .asInt a => .word 0xB#4 a
  | .asCustom a => .word 0xC#4 a
  | .asStr a => .word 0xD#4 a
  | .asRaw a => .word 0xE#4 a
  | .reserved op rsv => { op := op, a := 0#64, sAvail := 0#3, sIn := noLanes, rsv := rsv }

/-- The encoder to packed bits. -/
def encodeBits (i : Instr) : BitVec 128 := (encode i).bits

/-- One row of spec/opcode_table.json: its op code, and its match and mask, both on REQ_LO. -/
structure TableRow where
  op : BitVec 4
  pattern : Word
  mask : Word
  deriving DecidableEq, Repr

/-- The row's pattern stands at the row's mask. -/
def TableRow.holds (r : TableRow) (lo : Word) : Bool := lo &&& r.mask == r.pattern

/-- A row of one of the fifteen operations: all of op and of the reserved bits is fixed. -/
def TableRow.legal (op : BitVec 4) : TableRow :=
  { op := op, pattern := op.setWidth 64, mask := 0xFF0000000000F8FF#64 }

/-- spec/opcode_table.json, row by row. -/
def opcodeTable : List TableRow :=
  [.legal 0x0#4, .legal 0x1#4, .legal 0x2#4, .legal 0x3#4, .legal 0x4#4, .legal 0x5#4, .legal 0x6#4, .legal 0x7#4,
   .legal 0x8#4, .legal 0x9#4, .legal 0xA#4, .legal 0xB#4, .legal 0xC#4, .legal 0xD#4, .legal 0xE#4,
   { op := 0xF#4, pattern := 0xF#64, mask := 0xF#64 }]

/-- The op code of an operation (R82). -/
def Instr.op (i : Instr) : BitVec 4 := (encode i).op

/-- The instruction the decoder reads from the low `nbits` bits of `w`, numbered as spec/opcode_table.json numbers
them: bit 0 is REQ_LO bit 0, REQ_HI follows REQ_LO, and every bit at or above `nbits` is 0. A request has 128 bits,
so a number that needs more is none (log 14). -/
def decodeTableWord (nbits w : Nat) : Option Instr :=
  let v := w % 2 ^ nbits
  if v < 2 ^ 128 then some (decodeBits (BitVec.ofNat 128 v)) else none

end Sys2Proof
end

