-- ==== Sys2Proof/Machine/State.lean ====
section
/-! DEFINITION. The state as plain data. The block itself has no architectural state (R20 to R24); what stands here
is its interface (R25, R26), the model's observation state (R164) and the host's side of it (R51, R171, 95 L3). -/

namespace Sys2Proof.Machine

/-- The `status` of a response (R162). The codes 0b10 and 0b11 are "reserved and never driven": no value of this
type stands for one (log 17). -/
inductive Status where
  | ok
  | illegalRequest
  deriving DecidableEq, Repr

/-- The response bundle (R26). -/
structure Response where
  /-- result word -/
  r : Word
  /-- six string byte lanes, lane i at bits 8i+7:8i -/
  sOut : Payload
  status : Status
  deriving DecidableEq, Repr

/-- The variants of a word (R31), with the ninth outcome that `classify` defines and never produces (R31, R73). -/
inductive Variant where
  | double
  | null
  | undefined
  | bool
  | integer
  | string
  | custom
  | empty
  | unrecognized
  deriving DecidableEq, Repr

/-- A harness variable v0..v7 (95 L3). -/
abbrev VarId := Fin 8

/-- An operand of a harness command: a constant, or a variable (95 L3). -/
inductive Operand where
  | const (k : Word)
  | var (v : VarId)
  deriving DecidableEq, Repr

/-- The harness commands of 95 L3 (D31). -/
inductive Command where
  /-- `<mnemonic> <operand> -> vD`, in packed form: the operand gives REQ_HI, the rest is REQ_LO. With a constant
  operand it is also `req H : L -> vD`. -/
  | req (hi : Operand) (lo : Word) (d : VarId)
  /-- `enc.str @A -> vD` -/
  | encStrAt (addr : Word) (d : VarId)
  /-- `as.str vS -> @A` -/
  | asStrAt (s : VarId) (addr : Word)
  /-- `mov vD, k` -/
  | mov (d : VarId) (k : Word)
  /-- `add vD, vS, k` -/
  | add (d s : VarId) (k : Word)
  /-- `ld64 vD, [vS]` -/
  | ld64 (d s : VarId)
  /-- `st64 vS, A` -/
  | st64 (s : VarId) (addr : Word)
  /-- `beq x, y, t` -/
  | beq (x : VarId) (y : Operand) (t : Nat)
  /-- `bne x, y, t` -/
  | bne (x : VarId) (y : Operand) (t : Nat)
  /-- `jmp t` -/
  | jmp (t : Nat)
  /-- `halt` -/
  | halt
  deriving DecidableEq, Repr

/-- What the host does with a response: put `r` in a variable, or let the adapter write the six lanes of `s_out`
to the caller's buffer (R51, 95 L3). -/
inductive Reply where
  | toVar (d : VarId)
  | toBuffer (addr : Word)
  deriving DecidableEq, Repr

/-- Where an agent stands between two of its commands (R51, R61). -/
inductive Phase where
  /-- about to do the command at its pc -/
  | ready
  /-- the adapter reads the text at `addr`; `got` are the bytes read so far, none of them zero -/
  | loading (addr : Word) (got : List Byte) (d : VarId)
  /-- the request bundle is presented to the block -/
  | presenting (q : Request) (reply : Reply)
  /-- the adapter writes the response's lanes; `lanes` are still to be written, the first of them to `addr` -/
  | storing (addr : Word) (lanes : List Byte)
  deriving DecidableEq, Repr

/-- One requester (R171): a harness of 95 L3 without its memory, which all share. -/
structure Agent where
  vars : Vector Word 8
  /-- the command index that stands in for a pc (R22) -/
  pc : Nat
  /-- the status of the last response -/
  st : Status
  prog : List Command
  phase : Phase
  deriving DecidableEq, Repr

/-- The caller's memory (R12) in canonical form: addresses strictly rising, no entry equal to what an unlisted
address reads as. -/
abbrev Memory := List Host.Cell

/-- The whole state. -/
structure State where
  /-- the last response, none before the first request is served (R27, R181) -/
  resp : Option Response
  /-- the sticky mark (R164) -/
  contractViolated : Bool
  /-- HOST_ENDIAN (R8), never written (R23) -/
  hostEndian : Endian
  /-- the caller's memory (R12, R51) -/
  mem : Memory
  /-- the requesters (R171) -/
  agents : List Agent
  /-- the model's own: the agent that moves next (U13, log 11) -/
  turn : Nat
  /-- the model's own: how many free values have been drawn (log 3) -/
  draws : Nat
  deriving DecidableEq, Repr

/-- Why the machine stops. -/
inductive Fault where
  /-- Raised by CLASSIFY, should a word be neither a Double nor carry one of the seven tags: U6, "If
  a model ever derives code 8, treat it as `fault`". No word does (R73), so it is safe (log 16). -/
  | unrecognizedVariant
  deriving DecidableEq, Repr

/-- Why an instruction has no meaning. -/
inductive Refusal where
  /-- An arm of `exec` whose instruction has no meaning yet; safe. No arm uses it. -/
  | notModelled (mnemonic : String)
  deriving DecidableEq, Repr

/-- An agent as the harness starts (95 L3): variables 0, pc 0, status 0, no command. -/
def Agent.init : Agent :=
  { vars := #v[0#64, 0#64, 0#64, 0#64, 0#64, 0#64, 0#64, 0#64]
    pc := 0
    st := .ok
    prog := []
    phase := .ready }

/-- The machine right after reset. The block has nothing to reset (R180); there is no response before the first
request (R181); the host's side is the harness's start (95 L3). One agent, `turn` and `draws` 0: the model's choice
(logs 3, 11, 12). HOST_ENDIAN stays open (log 6). -/
def State.reset : State :=
  { resp := none
    contractViolated := false
    hostEndian := Config.hostEndian
    mem := []
    agents := [Agent.init]
    turn := 0
    draws := 0 }

end Sys2Proof.Machine
end

