-- ==== Sys2Proof/Machine/Tag.lean ====
section
/-! DEFINITION. The 64-bit word (R30, R70) and the `nan_tag_validator` sub-unit: constants (R8), field accessors
(R11), the numeric test (R71), the partition of the words (R72, R131). -/

namespace Sys2Proof.Machine

/-- BOUNDARY, the numeric boundary (R8, R71). -/
def boundary : Word := 0xFFF8FFFFFFFFFFFF#64

/-- CANON_NAN, what ENC_DOUBLE makes of a foreign NaN (R8, R76). -/
def canonNan : Word := 0x7FF8000000000000#64

/-- EMPTY_WORD (R8). -/
def emptyWord : Word := 0xFFFFFFFFFFFFFFFF#64

/-- `TAG(w) = w[63:48]` (R11). -/
def tagOf (w : Word) : BitVec 16 := w.extractLsb' 48 16

/-- `PAYLOAD(w) = w[47:0]` (R11). -/
def payloadOf (w : Word) : Payload := w.extractLsb' 0 48

/-- `BYTE(w, i) = w[8*i+7 : 8*i]` (R11). -/
def byteOf (w : Word) (i : Nat) : Byte := w.extractLsb' (8 * i) 8

/-- `zext_64` of a payload (R10). -/
def zext64 (p : Payload) : Word := p.setWidth 64

/-- The reserved tag constants (R33). A Double and the outcome Unrecognized have none. -/
def Variant.tag : Variant → Option (BitVec 16)
  | .double => none
  | .null => some 0xFFF9#16
  | .undefined => some 0xFFFA#16
  | .bool => some 0xFFFB#16
  | .integer => some 0xFFFC#16
  | .string => some 0xFFFD#16
  | .custom => some 0xFFFE#16
  | .empty => some 0xFFFF#16
  | .unrecognized => none

/-- The VariantTag codes (R32). -/
def Variant.code : Variant → BitVec 4
  | .double => 0
  | .null => 1
  | .undefined => 2
  | .bool => 3
  | .integer => 4
  | .string => 5
  | .custom => 6
  | .empty => 7
  | .unrecognized => 8

/-- A word from its tag and its payload (R70, R74). -/
def taggedWord (tag : BitVec 16) (p : Payload) : Word := (tag ++ p).cast rfl

/-- NUM_OK (R71): the inclusive unsigned comparison. -/
def numOk (w : Word) : Bool := w.ule boundary

/-- `classify` (R131): the numeric test, then the tag. -/
def classifyWord (w : Word) : Variant :=
  if numOk w then .double
  else if tagOf w = 0xFFF9#16 then .null
  else if tagOf w = 0xFFFA#16 then .undefined
  else if tagOf w = 0xFFFB#16 then .bool
  else if tagOf w = 0xFFFC#16 then .integer
  else if tagOf w = 0xFFFD#16 then .string
  else if tagOf w = 0xFFFE#16 then .custom
  else if tagOf w = 0xFFFF#16 then .empty
  else .unrecognized

/-- `Decode(w)` (R138): the variant, and the whole word for a Double, the payload for any other. -/
def decodeWord (w : Word) : Variant × Word :=
  (classifyWord w, if classifyWord w = .double then w else zext64 (payloadOf w))

/-- The type test `isV(w)` (R140): CLASSIFY, then the host's compare of the code. -/
def isVariant (v : Variant) (w : Word) : Bool := (classifyWord w).code == v.code

/-- Canonicalisation (R101): a word above the boundary becomes CANON_NAN, any other passes unchanged. -/
def canonicalize (w : Word) : Word := if numOk w then w else canonNan

end Sys2Proof.Machine
end

