-- ==== Sys2Proof/Machine/Strings.lean ====
section
/-! DEFINITION. The `string_pack_unpack` sub-unit (20_memory R52 to R57): PACK5, UNPACK5, and the memory image of a
word. -/

namespace Sys2Proof.Machine

/-- `min(s_avail, 5)`: 6 and 7 read as 5 (R53, D33). -/
def laneCount (sAvail : BitVec 3) : Nat := min sAvail.toNat 5

/-- The string bytes a request carries (R53): its first n lanes, up to the first zero lane. -/
def textOf (sIn : Lanes) (sAvail : BitVec 3) : List Byte :=
  (sIn.toList.take (laneCount sAvail)).takeWhile (· != 0#8)

/-- String byte i at bits `8*i+7 : 8*i`, zero above the last (R52). -/
def placeBytes : List Byte → Payload
  | [] => 0#48
  | b :: rest => b.setWidth 48 ||| placeBytes rest <<< 8

/-- PACK5 (R53). -/
def pack5 (sIn : Lanes) (sAvail : BitVec 3) : Payload := placeBytes (textOf sIn sAvail)

/-- UNPACK5 (R54): the five low bytes of the word, and the terminator in lane 5. -/
def unpack5 (w : Word) : Payload := (0x00#8 ++ w.extractLsb' 0 40).cast rfl

/-- Lane i of `s_out` (R26). -/
def laneOut (sOut : Payload) (i : Nat) : Byte := sOut.extractLsb' (8 * i) 8

/-- The six lanes of `s_out`, lane 0 first, as the adapter writes them (R51). -/
def lanesOut (sOut : Payload) : List Byte :=
  [laneOut sOut 0, laneOut sOut 1, laneOut sOut 2, laneOut sOut 3, laneOut sOut 4, laneOut sOut 5]

/-- The word's byte at offset j of its memory image (R55): byte j on a little-endian host, 7 - j on a big-endian
one. -/
def imageByte (e : Endian) (w : Word) (j : Nat) : Byte :=
  match e with
  | .le => byteOf w j
  | .be => byteOf w (7 - j)

/-- The memory image of a word, offsets 0 to 7 (R55). -/
def image (e : Endian) (w : Word) : List Byte :=
  [imageByte e w 0, imageByte e w 1, imageByte e w 2, imageByte e w 3,
   imageByte e w 4, imageByte e w 5, imageByte e w 6, imageByte e w 7]

/-- The word whose memory image has the byte `f j` at offset j (R55). -/
def wordOfImage (e : Endian) (f : Nat → Byte) : Word :=
  match e with
  | .le => (f 7 ++ f 6 ++ f 5 ++ f 4 ++ f 3 ++ f 2 ++ f 1 ++ f 0).cast rfl
  | .be => (f 0 ++ f 1 ++ f 2 ++ f 3 ++ f 4 ++ f 5 ++ f 6 ++ f 7).cast rfl

end Sys2Proof.Machine
end

