-- ==== Sys2Proof/Machine/Ops.lean ====
section
/-! DEFINITION. The named operations over memory and variables, and the outcomes of a request: an OK response, the
illegal request (R161) and the contract violation (R132, R164), each written once. The block has no trap to take and
none to return from (R160, R167, R168). -/

namespace Sys2Proof.Machine

/-! ## Memory -/

/-- What an address that is not listed reads as: "a byte memory, all 0 at start unless stated" (95 L3, log 8). -/
def Memory.blank : Byte := 0#8

/-- The canonical form: addresses below 2^64 (log 7) and strictly rising, no byte that an unlisted address reads
as. -/
abbrev Memory.wf (m : Memory) : Prop :=
  m.Pairwise (fun x y => x.1 < y.1) ∧ ∀ c ∈ m, c.1 < 2 ^ 64 ∧ c.2 ≠ Memory.blank

/-- `MemRead(addr, 1)` (R12). -/
def Memory.read (m : Memory) (addr : Nat) : Byte :=
  match m with
  | [] => Memory.blank
  | (k, v) :: rest => if k = addr then v else Memory.read rest addr

/-- The list with the byte at `addr` set, keeping the canonical form. -/
def Memory.write (m : Memory) (addr : Nat) (b : Byte) : Memory :=
  match m with
  | [] => if b = Memory.blank then [] else [(addr, b)]
  | (k, v) :: rest =>
    if addr < k then (if b = Memory.blank then (k, v) :: rest else (addr, b) :: (k, v) :: rest)
    else if addr = k then (if b = Memory.blank then rest else (k, b) :: rest)
    else (k, v) :: Memory.write rest addr b

/-- The cell of byte `i` from `base`: 64-bit addresses that wrap (log 7). -/
def cellAt (base : Word) (i : Nat) : Nat := (base + BitVec.ofNat 64 i).toNat

/-- `MemWrite` of several bytes, the first at `base`, each one access (R12). -/
def Memory.writeBytes (m : Memory) (base : Word) : List Byte → Memory
  | [] => m
  | b :: rest => Memory.writeBytes (m.write (cellAt base 0) b) (base + 1#64) rest

/-- The word whose memory image stands at `base` (95 L3 `ld64`, R55). -/
def Memory.readImage (m : Memory) (e : Endian) (base : Word) : Word :=
  wordOfImage e (fun j => m.read (cellAt base j))

/-! ## Agents -/

/-- Put `a` in the place of the agent whose turn it is. -/
def State.setAgent (s : State) (a : Agent) : State := { s with agents := s.agents.set s.turn a }

/-- The agent whose turn it is, if there is one. -/
def State.current (s : State) : Option Agent := s.agents[s.turn]?

/-- Write a harness variable. -/
def Agent.setVar (a : Agent) (d : VarId) (w : Word) : Agent := { a with vars := a.vars.set d w }

/-- Read a harness variable. -/
def Agent.getVar (a : Agent) (v : VarId) : Word := a.vars[v]

/-- `pc <- pc + 1`, ready for the next command (95 L3). -/
def Agent.advance (a : Agent) : Agent := { a with pc := a.pc + 1, phase := .ready }

/-- Choose the agent that moves next. With one agent there is no choice; with more the order is open (R171, U13). -/
def State.pass (s : State) : State :=
  if s.agents.length ≤ 1 then { s with turn := 0 }
  else { s with turn := Config.schedule s.draws % s.agents.length, draws := s.draws + 1 }

/-! ## Outcomes of a request -/

/-- An OK response (R100, R130): `status` 0b00. -/
def respond (r : Word) (sOut : Payload) (s : State) : Host.Outcome State Fault Refusal :=
  .next { s with resp := some { r := r, sOut := sOut, status := .ok } }

/-- `raise IllegalRequest` (R161): status 0b01, `r` and `s_out` 0, and nothing else recorded. It is no trap (R12). -/
def raiseIllegalRequest (s : State) : Host.Outcome State Fault Refusal :=
  .next { s with resp := some { r := 0#64, sOut := 0#48, status := .illegalRequest } }

/-- A contract violation (R132, R163, R164): `r` and `s_out` are draws, status 0b00, and the sticky mark is set. -/
def violateContract (s : State) : Host.Outcome State Fault Refusal :=
  .next { s with
    resp := some { r := Config.drawR s.draws, sOut := Config.drawSOut s.draws, status := .ok }
    contractViolated := true
    draws := s.draws + 1 }

/-- The accessor guard (R132): the response of the rule when CLASSIFY gives the accessor's own variant, a contract
violation when it gives another. -/
def guarded (own : Variant) (w : Word) (r : Word) (sOut : Payload) (s : State) : Host.Outcome State Fault Refusal :=
  if classifyWord w = own then respond r sOut s else violateContract s

end Sys2Proof.Machine
end

