-- ==== Sys2Proof/Machine/Operands.lean ====
section
/-! DEFINITION. Operand assembly (R81): what each operation takes from the request, and a command from its harness. -/

namespace Sys2Proof.Machine

/-- `a[47:0]`: bits 63:48 are dropped (R81, R106, R108). -/
def low48 (a : Word) : Payload := a.extractLsb' 0 48

/-- `b = (a != 0)` (R81, R105, D18). -/
def truth (a : Word) : Bool := a != 0#64

/-- `if b then 1 else 0` as a payload (R105). -/
def boolPayload (b : Bool) : Payload := if b then 1#48 else 0#48

/-- The AS_BOOL result, 0 or 1 (R133, D24): any non-zero payload is true. -/
def payloadTruth (w : Word) : Word := if payloadOf w = 0#48 then 0#64 else 1#64

/-- The value of a harness operand (95 L3): a constant, or a variable's. -/
def Agent.operand (a : Agent) : Operand → Word
  | .const k => k
  | .var v => a.getVar v

/-- The operand of ENC_STRING as the adapter loads it (R51): s_avail is the number of bytes read, at most 5, and the
lanes at or above it hold any value (log 10). -/
def stringRequest (got : List Byte) (draw : Nat) : Request :=
  { op := 0x6#4
    a := 0#64
    sAvail := BitVec.ofNat 3 got.length
    sIn := #v[got.getD 0 (Config.freeLane draw 0), got.getD 1 (Config.freeLane draw 1),
      got.getD 2 (Config.freeLane draw 2), got.getD 3 (Config.freeLane draw 3), got.getD 4 (Config.freeLane draw 4)]
    rsv := 0#17 }

end Sys2Proof.Machine
end

