-- ==== Sys2Proof/Machine/Flags.lean ====
section
/-! DEFINITION. The block has no flags and no condition codes (R24): no operation computes one. What a response says
about its request is its `status` (R162), packed here with the rest of the response (R86). -/

namespace Sys2Proof.Machine

/-- The status codes (R162). -/
def Status.code : Status → BitVec 2
  | .ok => 0b00#2
  | .illegalRequest => 0b01#2

/-- RESP_HI holds `r` (R86). -/
def Response.hi (p : Response) : Word := p.r

/-- RESP_LO: bits 63:50 are driven 0, then `status`, then `s_out` (R86). -/
def Response.lo (p : Response) : Word := (0#14 ++ p.status.code ++ p.sOut).cast rfl

/-- The packed response, RESP_HI above RESP_LO (R86). -/
def Response.bits (p : Response) : BitVec 128 := (p.hi ++ p.lo).cast rfl

end Sys2Proof.Machine
end

