-- ==== Sys2Proof/Machine/Decoders.lean ====
section
/-! DEFINITION. The `tagged_double_decoder` sub-unit: ops 0x9 to 0xE (41_decoders). -/

namespace Sys2Proof.Machine

/-- CLASSIFY (R131): the variant's code, zero-extended. The outcome Unrecognized stops the model (U6, log 16); no
word gives it (R73). -/
def execClassify (w : Word) (s : State) : Host.Outcome State Fault Refusal :=
  if classifyWord w = .unrecognized then .fault .unrecognizedVariant
  else respond ((classifyWord w).code.setWidth 64) 0#48 s

/-- AS_BOOL (R133) under its guard (R132). -/
def execAsBool (w : Word) (s : State) : Host.Outcome State Fault Refusal :=
  guarded .bool w (payloadTruth w) 0#48 s

/-- AS_INTEGER (R134) under its guard (R132): unsigned, no sign extension. -/
def execAsInt (w : Word) (s : State) : Host.Outcome State Fault Refusal :=
  guarded .integer w (zext64 (payloadOf w)) 0#48 s

/-- AS_CUSTOM (R135) under its guard (R132). -/
def execAsCustom (w : Word) (s : State) : Host.Outcome State Fault Refusal :=
  guarded .custom w (zext64 (payloadOf w)) 0#48 s

/-- AS_STRING (R136) under its guard (R132): the lanes are the result, and `r` is 0 (D25). -/
def execAsStr (w : Word) (s : State) : Host.Outcome State Fault Refusal :=
  guarded .string w 0#64 (unpack5 w) s

/-- AS_RAW (R137): no guard. -/
def execAsRaw (w : Word) (s : State) : Host.Outcome State Fault Refusal :=
  respond w 0#48 s

end Sys2Proof.Machine
end

