-- ==== Sys2Proof/Machine/Encoders.lean ====
section
/-! DEFINITION. The `tagged_double_encoder` sub-unit: ops 0x0 to 0x8 (40_encoders). Every encoder drives `s_out` to 0
and `status` to 0b00, and can cause no contract violation (R100). -/

namespace Sys2Proof.Machine

/-- ENC_DOUBLE (R101). -/
def execEncDouble (a : Word) (s : State) : Host.Outcome State Fault Refusal :=
  respond (canonicalize a) 0#48 s

/-- ENC_NULL (R102). -/
def execEncNull (s : State) : Host.Outcome State Fault Refusal :=
  respond (taggedWord 0xFFF9#16 0#48) 0#48 s

/-- ENC_UNDEFINED (R103). -/
def execEncUndef (s : State) : Host.Outcome State Fault Refusal :=
  respond (taggedWord 0xFFFA#16 0#48) 0#48 s

/-- ENC_EMPTY (R104): the all-ones word. -/
def execEncEmpty (s : State) : Host.Outcome State Fault Refusal :=
  respond emptyWord 0#48 s

/-- ENC_BOOL (R105): only bit 0 of the payload is ever set. -/
def execEncBool (a : Word) (s : State) : Host.Outcome State Fault Refusal :=
  respond (taggedWord 0xFFFB#16 (boolPayload (truth a))) 0#48 s

/-- ENC_INTEGER (R106): the low 48 bits, overflow undetected. -/
def execEncInt (a : Word) (s : State) : Host.Outcome State Fault Refusal :=
  respond (taggedWord 0xFFFC#16 (low48 a)) 0#48 s

/-- ENC_STRING (R107). -/
def execEncStr (sAvail : BitVec 3) (sIn : Lanes) (s : State) : Host.Outcome State Fault Refusal :=
  respond (taggedWord 0xFFFD#16 (pack5 sIn sAvail)) 0#48 s

/-- ENC_CUSTOM (R108). -/
def execEncCustom (a : Word) (s : State) : Host.Outcome State Fault Refusal :=
  respond (taggedWord 0xFFFE#16 (low48 a)) 0#48 s

/-- ENC_RAW (R109): every word, unchanged. -/
def execEncRaw (a : Word) (s : State) : Host.Outcome State Fault Refusal :=
  respond a 0#48 s

end Sys2Proof.Machine
end

