-- ==== Sys2Proof/Machine/Illegal.lean ====
section
/-! DEFINITION. The reserved row of the opcode table. -/

namespace Sys2Proof.Machine

/-- ILLEGAL_REQUEST (R83, R161). "Nothing else is recorded, neither the request bits nor an address." -/
def execReserved (_op : BitVec 4) (_rsv : BitVec 17) (s : State) : Host.Outcome State Fault Refusal :=
  raiseIllegalRequest s

end Sys2Proof.Machine
end

