-- ==== Sys2Proof/Machine/Dispatch.lean ====
section
/-! DEFINITION. One arm per operation (R82, R83). -/

namespace Sys2Proof.Machine

def exec (i : Instr) (s : State) : Host.Outcome State Fault Refusal :=
  match i with
  | .encDouble a => Sys2Proof.Machine.execEncDouble a s
  | .encNull => Sys2Proof.Machine.execEncNull s
  | .encUndef => Sys2Proof.Machine.execEncUndef s
  | .encEmpty => Sys2Proof.Machine.execEncEmpty s
  | .encBool a => Sys2Proof.Machine.execEncBool a s
  | .encInt a => Sys2Proof.Machine.execEncInt a s
  | .encStr sAvail sIn => Sys2Proof.Machine.execEncStr sAvail sIn s
  | .encCustom a => Sys2Proof.Machine.execEncCustom a s
  | .encRaw a => Sys2Proof.Machine.execEncRaw a s
  | .classify a => Sys2Proof.Machine.execClassify a s
  | .asBool a => Sys2Proof.Machine.execAsBool a s
  | .asInt a => Sys2Proof.Machine.execAsInt a s
  | .asCustom a => Sys2Proof.Machine.execAsCustom a s
  | .asStr a => Sys2Proof.Machine.execAsStr a s
  | .asRaw a => Sys2Proof.Machine.execAsRaw a s
  | .reserved op rsv => Sys2Proof.Machine.execReserved op rsv s

end Sys2Proof.Machine
end

