-- ==== Sys2Proof/Machine/Harness.lean ====
section
/-! DEFINITION. The host's side: the adapter that moves string bytes between the caller's memory and the lanes (R51,
R61), and the harness commands (95 L3, D31). One call of a function here is one action of one agent. -/

namespace Sys2Proof.Machine

/-! ## The adapter -/

/-- All lanes are loaded: the request is presented (R51, R61). The lanes that were not loaded are a draw. -/
def presentString (got : List Byte) (d : VarId) (a : Agent) (s : State) : State :=
  { s.setAgent { a with phase := .presenting (stringRequest got s.draws) (.toVar d) } with draws := s.draws + 1 }

/-- One byte of the caller's string is read (R51). A zero byte ends the text, the fifth byte fills the lanes. The byte
read is the one last written by any agent: the model's choice (log 27). -/
def loadByte (addr : Word) (got : List Byte) (d : VarId) (a : Agent) (s : State) : State :=
  if s.mem.read (cellAt addr got.length) = 0#8 then presentString got d a s
  else if 4 ≤ got.length then presentString (got ++ [s.mem.read (cellAt addr got.length)]) d a s
  else s.setAgent { a with phase := .loading addr (got ++ [s.mem.read (cellAt addr got.length)]) d }

/-- One lane of the response is written to the caller's buffer (R51); after the last the command is done. Every agent
reads the new byte from the next step on: one memory for all is the model's choice, since R61 and D10 leave the order
of accesses between agents to the host (log 27). -/
def storeByte (addr : Word) (lanes : List Byte) (a : Agent) (s : State) : State :=
  match lanes with
  | [] => s.setAgent a.advance
  | [b] => { s.setAgent a.advance with mem := s.mem.write (cellAt addr 0) b }
  | b :: rest =>
    { s.setAgent { a with phase := .storing (addr + 1#64) rest } with mem := s.mem.write (cellAt addr 0) b }

/-- The response reaches its requester (95 L3): `vD <- resp.r` and on to the next command, or the adapter starts to
write the lanes; `st <- resp.status` in both. -/
def takeResponse (p : Response) (a : Agent) : Reply → Agent
  | .toVar d => { (a.setVar d p.r).advance with st := p.status }
  | .toBuffer addr => { a with st := p.status, phase := .storing addr (lanesOut p.sOut) }

/-- The response just driven goes to the agent whose request was served. -/
def deliver (reply : Reply) (a : Agent) (s : State) : State :=
  match s.resp with
  | none => s
  | some p => s.setAgent (takeResponse p a reply)

/-! ## The commands -/

/-- `if c then pc <- t else pc <- pc + 1` (95 L3). -/
def branch (c : Bool) (t : Nat) (a : Agent) : Agent := if c then { a with pc := t } else a.advance

/-- A request is presented with REQ_HI and REQ_LO as given (95 L3, R80). -/
def Agent.present (a : Agent) (hi lo : Word) (reply : Reply) : Agent :=
  { a with phase := .presenting (Request.unpack hi lo) reply }

/-- One command of 95 L3, done by the agent `a` whose turn it is. -/
def runCommand (c : Command) (a : Agent) (s : State) : State :=
  match c with
  | .req hi lo d => s.setAgent (a.present (a.operand hi) lo (.toVar d))
  | .encStrAt addr d => s.setAgent { a with phase := .loading addr [] d }
  | .asStrAt v addr => s.setAgent (a.present (a.getVar v) 0xD#64 (.toBuffer addr))
  | .mov d k => s.setAgent (a.setVar d k).advance
  | .add d v k => s.setAgent (a.setVar d (a.getVar v + k)).advance
  | .ld64 d v => s.setAgent (a.setVar d (s.mem.readImage s.hostEndian (a.getVar v))).advance
  | .st64 v addr =>
    { s.setAgent a.advance with mem := s.mem.writeBytes addr (image s.hostEndian (a.getVar v)) }
  | .beq x y t => s.setAgent (branch (a.getVar x == a.operand y) t a)
  | .bne x y t => s.setAgent (branch (a.getVar x != a.operand y) t a)
  | .jmp t => s.setAgent { a with pc := t }
  | .halt => s

/-- The command at the agent's pc, if its program has one there; without one it waits (log 18). -/
def runReady (a : Agent) (s : State) : State :=
  match a.prog[a.pc]? with
  | none => s
  | some c => runCommand c a s

/-- The block serves the request presented (R27): it is decoded and performed, and its response delivered. -/
def serve (q : Request) (reply : Reply) (a : Agent) (s : State) : Host.Outcome State Fault Refusal :=
  match exec (decode q) s with
  | .next t => .next (deliver reply a t).pass
  | .fault f => .fault f
  | .refused r => .refused r

/-- One action of one agent, then the next agent's turn. -/
def act (a : Agent) (s : State) : Host.Outcome State Fault Refusal :=
  match a.phase with
  | .ready => .next (runReady a s).pass
  | .loading addr got d => .next (loadByte addr got d a s).pass
  | .presenting q reply => serve q reply a s
  | .storing addr lanes => .next (storeByte addr lanes a s).pass

/-- Agent 0 presents the packed request `w` and it is agent 0's turn: what a host does that hands the block one
request. Without an agent, one is started. -/
def State.presentBits (s : State) (w : BitVec 128) : State :=
  { s with
    turn := 0
    agents := { s.agents.headD Agent.init with phase := .presenting (Request.ofBits w) (.toVar 0) } :: s.agents.drop 1 }

end Sys2Proof.Machine
end

