-- ==== Sys2Proof/Machine/Step.lean ====
section
/-! DEFINITION. One step of the whole: the agent whose turn it is acts once. -/

namespace Sys2Proof.Machine

/-- One step. If no agent has the turn, nothing happens but that the turn passes. -/
def step (s : State) : Host.Outcome State Fault Refusal :=
  match s.current with
  | none => .next s.pass
  | some a => act a s

/-- `s` with the request whose packed form is the low `nbits` bits of `w` presented to the block, so that the next
step serves it (log 2). -/
def State.withFetchWord (s : State) (nbits w : Nat) : State := s.presentBits (BitVec.ofNat 128 (w % 2 ^ nbits))

end Sys2Proof.Machine
end

