-- ==== Sys2Proof/Machine/Assembler.lean ====
section
/-! DEFINITION. The assembler's line form (R87) and the pseudo-instructions (R88). A line is a list of characters; a
line outside the form is none. -/

namespace Sys2Proof.Machine.Asm

/-- What a line stands for: one request, or `is.<variant> a`, which is `classify a` and then a host-side compare
(R88, D16). -/
inductive Line where
  | request (i : Instr)
  | typeTest (v : Variant) (w : Word)
  deriving DecidableEq, Repr

/-- The request a line presents (R88). -/
def Line.instr : Line → Instr
  | .request i => i
  | .typeTest _ w => .classify w

/-- The value of a hexadecimal digit. -/
def hexDigit (c : Char) : Option Nat :=
  if '0' ≤ c ∧ c ≤ '9' then some (c.toNat - '0'.toNat)
  else if 'a' ≤ c ∧ c ≤ 'f' then some (c.toNat - 'a'.toNat + 10)
  else if 'A' ≤ c ∧ c ≤ 'F' then some (c.toNat - 'A'.toNat + 10)
  else none

/-- The value of a decimal digit. -/
def decDigit (c : Char) : Option Nat := if '0' ≤ c ∧ c ≤ '9' then some (c.toNat - '0'.toNat) else none

/-- The digits' value in a base, after `acc`. "An underscore inside a constant only groups digits" (R10). -/
def digits (base : Nat) (digit : Char → Option Nat) (acc : Nat) : List Char → Option Nat
  | [] => some acc
  | c :: rest =>
    if c = '_' then digits base digit acc rest
    else
      match digit c with
      | some d => digits base digit (base * acc + d) rest
      | none => none

/-- A number of at least one digit; it begins with a digit, and underscores may stand anywhere after it: the model's
choice where R10 says only that one groups digits (log 29). -/
def number (base : Nat) (digit : Char → Option Nat) (cs : List Char) : Option Nat :=
  match cs with
  | [] => none
  | c :: _ => if (digit c).isSome then digits base digit 0 cs else none

/-- A 64-bit constant from a number that fits. -/
def constant (n : Option Nat) : Option Word :=
  match n with
  | some v => if v < 2 ^ 64 then some (BitVec.ofNat 64 v) else none
  | none => none

/-- The 64-bit two's-complement pattern of a negative decimal (R87), down to -2^63 (log 20). -/
def negative (n : Option Nat) : Option Word :=
  match n with
  | some v => if v ≤ 2 ^ 63 then some (BitVec.ofInt 64 (-(v : Int))) else none
  | none => none

/-- A decimal without its sign: all its digits as one number, and how many of them stand behind the point. The spec gives
no grammar of `<decimal>`; the model's choice (log 29): at most one point, with digits on both sides of it, so `.5`, `5.`
and an exponent (`1e3`) are refused. -/
def decimal (cs : List Char) : Option (Nat × Nat) :=
  match cs.dropWhile (· != '.') with
  | [] => (number 10 decDigit cs).map (·, 0)
  | _ :: places =>
    match number 10 decDigit (cs.takeWhile (· != '.')), number 10 decDigit places with
    | some w, some p =>
      let n := (places.filter (· != '_')).length
      some (w * 10 ^ n + p, n)
    | _, _ => none

/-- The binary64 pattern of `m / 2^k`, `m` not 0, if it is a normal number with at most 53 significant bits (layout:
R35, log 21). -/
def normalPattern (m k : Nat) : Option Word :=
  let l := m.log2
  if (l ≤ 52 ∨ m % 2 ^ (l - 52) = 0) ∧ k ≤ l + 1022 ∧ l ≤ k + 1023 then
    some (BitVec.ofNat 64 ((l + 1023 - k) * 2 ^ 52 + (m * 2 ^ 52 / 2 ^ l - 2 ^ 52)))
  else none

/-- The binary64 pattern of `m / 10^k`, if it is 0 or a normal number that binary64 holds exactly. -/
def exactPattern (m k : Nat) : Option Word :=
  if m = 0 then some 0#64 else if m % 5 ^ k = 0 then normalPattern (m / 5 ^ k) k else none

/-- `f64(<decimal>)` without its sign: `text` is the whole of it. A number that binary64 does not hold exactly gets the
host's pattern, which is open (R7, U12, log 20). `inf` is read with or without a sign: 95 L1-4 writes `+inf` and `-inf`,
the unsigned form is the model's choice (log 29). -/
def f64Magnitude (text cs : List Char) (sign : Word) : Option Word :=
  if cs = "inf".toList then some (sign ||| 0x7FF0000000000000#64)
  else
    match decimal cs with
    | none => none
    | some (m, k) =>
      match exactPattern m k with
      | some w => some (sign ||| w)
      | none => some (Config.f64Pattern text)

/-- The binary64 pattern of the number between the brackets of `f64(<decimal>)` (R87). -/
def f64 (cs : List Char) : Option Word :=
  match cs with
  | '-' :: rest => f64Magnitude cs rest 0x8000000000000000#64
  | '+' :: rest => f64Magnitude cs rest 0#64
  | _ => f64Magnitude cs cs 0#64

/-- The operand `a` (R87): hex, decimal, a negative decimal, or `f64(<decimal>)`. No plus sign but inside `f64(...)`, no
sign before `0x`, no space inside (log 29). -/
def operand (cs : List Char) : Option Word :=
  match cs with
  | '0' :: 'x' :: rest => constant (number 16 hexDigit rest)
  | '-' :: rest => negative (number 10 decDigit rest)
  | 'f' :: '6' :: '4' :: '(' :: rest => if rest.getLast? = some ')' then f64 rest.dropLast else none
  | _ => constant (number 10 decDigit cs)

/-- The bytes of a quoted byte string, the opening quote already read. The spec gives no character encoding and no
escapes; the model's choice (log 28): a character below code point 256 is the byte of that number and any other is
refused, `\0` is a zero byte (log 20), a backslash before anything else is itself, and the first inner quote ends the
text, so a line that goes on after it is refused. -/
def quoted : List Char → Option (List Byte)
  | [] => none
  | '"' :: rest => if rest = [] then some [] else none
  | '\\' :: '0' :: rest => (quoted rest).map (0#8 :: ·)
  | c :: rest => if c.toNat < 256 then (quoted rest).map (BitVec.ofNat 8 c.toNat :: ·) else none

/-- `enc.str "<text>"` (R88): `n = min(L, 5)` with L the bytes before the first NUL, higher lanes 0. -/
def encStrText (text : List Byte) : Instr :=
  let kept := (text.takeWhile (· != 0#8)).take 5
  .encStr (BitVec.ofNat 3 kept.length)
    #v[kept.getD 0 0#8, kept.getD 1 0#8, kept.getD 2 0#8, kept.getD 3 0#8, kept.getD 4 0#8]

/-- Ten hexadecimal digits, the most significant lane first (R87); no underscore among them (log 29). -/
def lanesOfHex (cs : List Char) : Option Lanes :=
  if cs.length = 10 then
    match cs.mapM hexDigit with
    | some [h4, l4, h3, l3, h2, l2, h1, l1, h0, l0] =>
      some #v[BitVec.ofNat 8 (16 * h0 + l0), BitVec.ofNat 8 (16 * h1 + l1), BitVec.ofNat 8 (16 * h2 + l2),
        BitVec.ofNat 8 (16 * h3 + l3), BitVec.ofNat 8 (16 * h4 + l4)]
    | _ => none
  else none

/-- Drop leading spaces. -/
def trim : List Char → List Char
  | ' ' :: rest => trim rest
  | cs => cs

/-- The explicit form `n=<0..7>, lanes=<10 hex digits>` (R87). -/
def explicitStr (cs : List Char) : Option Instr :=
  match cs with
  | 'n' :: '=' :: d :: ',' :: rest =>
    match decDigit d, trim rest with
    | some n, 'l' :: 'a' :: 'n' :: 'e' :: 's' :: '=' :: hex =>
      if n < 8 then (lanesOfHex hex).map (Instr.encStr (BitVec.ofNat 3 n)) else none
    | _, _ => none
  | _ => none

/-- The ENC_STRING operand (R87). -/
def strOperand (cs : List Char) : Option Instr :=
  match cs with
  | '"' :: rest => (quoted rest).map encStrText
  | _ => explicitStr cs

/-- The mnemonic of an operation, R87's and the opcode table's spelling. -/
def mnemonic : Instr → String
  | .encDouble _ => "enc.double"
  | .encNull => "enc.null"
  | .encUndef => "enc.undef"
  | .encEmpty => "enc.empty"
  | .encBool _ => "enc.bool"
  | .encInt _ => "enc.int"
  | .encStr _ _ => "enc.str"
  | .encCustom _ => "enc.custom"
  | .encRaw _ => "enc.raw"
  | .classify _ => "classify"
  | .asBool _ => "as.bool"
  | .asInt _ => "as.int"
  | .asCustom _ => "as.custom"
  | .asStr _ => "as.str"
  | .asRaw _ => "as.raw"
  | .reserved _ _ => "(reserved)"

/-- The name of a variant in `is.<variant>` (log 20). -/
def variantName : Variant → String
  | .double => "double"
  | .null => "null"
  | .undefined => "undefined"
  | .bool => "bool"
  | .integer => "integer"
  | .string => "string"
  | .custom => "custom"
  | .empty => "empty"
  | .unrecognized => "unrecognized"

/-- The operations whose operand is `a` (R87). -/
def wordOps (a : Word) : List Instr :=
  [.encDouble a, .encBool a, .encInt a, .encCustom a, .encRaw a, .classify a, .asBool a, .asInt a, .asCustom a,
   .asStr a, .asRaw a]

/-- The lines without an operand (R87), and the pseudo-instructions `enc.true` and `enc.false` (R88). -/
def bareOps : List (String × Instr) :=
  [("enc.null", .encNull), ("enc.undef", .encUndef), ("enc.empty", .encEmpty),
   ("enc.true", .encBool 1#64), ("enc.false", .encBool 0#64)]

/-- The variants a word can have: what `is.<variant>` may name (R31, R88). -/
def variants : List Variant := [.double, .null, .undefined, .bool, .integer, .string, .custom, .empty]

/-- A line whose mnemonic is `m` and whose operand text is `rest`. -/
def lineOf (m rest : List Char) : Option Line :=
  if rest = [] then ((bareOps.find? (fun p => p.1.toList = m)).map (fun p => .request p.2))
  else if m = "enc.str".toList then (strOperand rest).map .request
  else
    match operand rest with
    | none => none
    | some a =>
      match (wordOps a).find? (fun i => (mnemonic i).toList = m) with
      | some i => some (.request i)
      | none => (variants.find? (fun v => "is.".toList ++ (variantName v).toList = m)).map (.typeTest · a)

/-- "One request per line: `mnemonic [operand]`" (R87). Lower case as R87 writes it, no space before the mnemonic and none
after an operand (log 29). -/
def parse (line : List Char) : Option Line :=
  lineOf (line.takeWhile (· != ' ')) (trim (line.dropWhile (· != ' ')))

end Sys2Proof.Machine.Asm
end

