-- ==== Sys2Proof/Machine/Equality.lean ====
section
/-! DEFINITION. The relation `TaggedEq` (R36) and the binary64 fields it reads (R35). The block has no operation for
it (D9); it is what a host's equality must obey (R185). -/

namespace Sys2Proof.Machine

/-- `w[63]` (R35; general knowledge, K1, log 21). -/
def signBit (w : Word) : Bool := w.getLsbD 63

/-- The biased exponent `w[62:52]` (R35). -/
def exponent (w : Word) : BitVec 11 := w.extractLsb' 52 11

/-- The fraction `w[51:0]` (R35). -/
def fraction (w : Word) : BitVec 52 := w.extractLsb' 0 52

/-- An IEEE NaN (R35). -/
def isNaN (w : Word) : Bool := exponent w == 0x7FF#11 && fraction w != 0#52

/-- An infinity (R35). -/
def isInfinity (w : Word) : Bool := exponent w == 0x7FF#11 && fraction w == 0#52

/-- A zero of either sign (R35): `w[62:0] == 0`. -/
def isZero (w : Word) : Bool := w.extractLsb' 0 63 == 0#63

/-- `TaggedEq(x, y)` (R36), branch by branch. -/
def taggedEq (x y : Word) : Bool :=
  if numOk x && numOk y then
    if isNaN x || isNaN y then false
    else if isZero x && isZero y then true
    else x == y
  else if !numOk x && !numOk y then x == y
  else false

end Sys2Proof.Machine
end

