-- ==== Sys2Proof/Safety.lean ====
section
/-! DEFINITION. What counts as a safe run, in the terms the statements use: the caller's contract (R132, R185), the
premise `contractViolated = false` (R164), and the invariant every step keeps. -/

namespace Sys2Proof

open Machine

/-- The variant a guarded accessor is defined on, and the word it is applied to (R132). The other operations have no
guard. -/
def Instr.guard : Instr → Option (Variant × Word)
  | .encDouble _ => none
  | .encNull => none
  | .encUndef => none
  | .encEmpty => none
  | .encBool _ => none
  | .encInt _ => none
  | .encStr _ _ => none
  | .encCustom _ => none
  | .encRaw _ => none
  | .classify _ => none
  | .asBool w => some (.bool, w)
  | .asInt w => some (.integer, w)
  | .asCustom w => some (.custom, w)
  | .asStr w => some (.string, w)
  | .asRaw _ => none
  | .reserved _ _ => none

/-- `Guard(op, w)` (R132): "callers must always `classify` before accessing a payload" (R185). -/
def Instr.guardHolds (i : Instr) : Bool :=
  match i.guard with
  | none => true
  | some (v, w) => classifyWord w == v

end Sys2Proof

namespace Sys2Proof.Machine

/-- The host agent about to be served keeps its contract: the request it presents, if it presents one, is no guarded
accessor on a word of another variant (R185). -/
def State.callerObeys (s : State) : Bool :=
  match s.current with
  | some a =>
    match a.phase with
    | .presenting q _ => (decode q).guardHolds
    | _ => true
  | none => true

/-- The run so far broke no contract (R164): the premise of a claim about a host program. -/
def State.safe (s : State) : Bool := !s.contractViolated

/-- An illegal request's response is all zero but for its status (R161). -/
def Response.wf (p : Response) : Bool := p.status == .ok || (p.r == 0#64 && p.sOut == 0#48)

/-- The adapter holds less than five string bytes while it reads, none of them zero, and has one to six lanes left
while it writes (R51, R53, R59). -/
def Phase.wf : Phase → Bool
  | .ready => true
  | .loading _ got _ => decide (got.length < 5) && got.all (· != 0#8)
  | .presenting _ _ => true
  | .storing _ lanes => decide (0 < lanes.length) && decide (lanes.length ≤ 6)

/-- The invariant: the memory is in canonical form, every agent's adapter is in order, the turn is an agent's, and the
last response, if there is one, has a form R26 and R161 allow. -/
structure State.Inv (s : State) : Prop where
  mem : Memory.wf s.mem
  phases : ∀ a ∈ s.agents, a.phase.wf = true
  turn : s.agents ≠ [] → s.turn < s.agents.length
  resp : ∀ p, s.resp = some p → p.wf = true

end Sys2Proof.Machine
end

