-- ==== Sys2Proof/Certificates/Slice0/Obligations.lean ====
section
/-! DEFINITION. The statements for the provers. A request is a bundle `q` of R25; `q.rsv = 0` says that its reserved
bits are zero. A next state written out in full is its own frame: what it does not name is as before. -/

open Sys2Proof Sys2Proof.Machine

/-! ## Encoders -/

/-- R101. -/
def Obligations.EncDoubleKeepsUpToBoundaryElseCanonNan : Prop :=
  ∀ (q : Request) (s : State), q.op = 0x0#4 → q.rsv = 0#17 →
    exec (decode q) s = .next
      { s with resp := some ⟨if q.a.toNat ≤ 0xFFF8FFFFFFFFFFFF then q.a else 0x7FF8000000000000#64, 0#48, .ok⟩ }

/-- R102, R103, R104: whatever the fields the three operations do not read. -/
def Obligations.EncNullUndefEmptyAreFixedWords : Prop :=
  ∀ (q : Request) (s : State), q.rsv = 0#17 →
    (q.op = 0x1#4 → exec (decode q) s = .next { s with resp := some ⟨0xFFF9000000000000#64, 0#48, .ok⟩ }) ∧
    (q.op = 0x2#4 → exec (decode q) s = .next { s with resp := some ⟨0xFFFA000000000000#64, 0#48, .ok⟩ }) ∧
    (q.op = 0x3#4 → exec (decode q) s = .next { s with resp := some ⟨0xFFFFFFFFFFFFFFFF#64, 0#48, .ok⟩ })

/-- R105. -/
def Obligations.EncBoolSetsOnlyPayloadBitZero : Prop :=
  ∀ (q : Request) (s : State), q.op = 0x4#4 → q.rsv = 0#17 →
    exec (decode q) s = .next
      { s with resp := some ⟨0xFFFB000000000000#64 ||| (if q.a = 0#64 then 0#64 else 1#64), 0#48, .ok⟩ }

/-- R106. -/
def Obligations.EncIntKeepsLow48BitsUnderItsTag : Prop :=
  ∀ (q : Request) (s : State), q.op = 0x5#4 → q.rsv = 0#17 →
    exec (decode q) s = .next
      { s with resp := some ⟨0xFFFC000000000000#64 ||| (q.a.extractLsb' 0 48).setWidth 64, 0#48, .ok⟩ }

/-- R108. -/
def Obligations.EncCustomKeepsLow48BitsUnderItsTag : Prop :=
  ∀ (q : Request) (s : State), q.op = 0x7#4 → q.rsv = 0#17 →
    exec (decode q) s = .next
      { s with resp := some ⟨0xFFFE000000000000#64 ||| (q.a.extractLsb' 0 48).setWidth 64, 0#48, .ok⟩ }

/-- R107 with PACK5 of R53: k is the number of lanes below min(s_avail, 5) before the first zero one; string byte i is
byte i of the word for i < k, every other byte of the payload is zero. -/
def Obligations.EncStrPlacesLanesUpToFirstZero : Prop :=
  ∀ (q : Request) (s : State), q.op = 0x6#4 → q.rsv = 0#17 →
    ∃ (k : Nat) (r : Word),
      k ≤ min q.sAvail.toNat 5 ∧
      (∀ i < k, q.sIn.toList.getD i 0#8 ≠ 0#8) ∧
      (k < min q.sAvail.toNat 5 → q.sIn.toList.getD k 0#8 = 0#8) ∧
      r.extractLsb' 48 16 = 0xFFFD#16 ∧
      (∀ i < 6, r.extractLsb' (8 * i) 8 = if i < k then q.sIn.toList.getD i 0#8 else 0#8) ∧
      exec (decode q) s = .next { s with resp := some ⟨r, 0#48, .ok⟩ }

/-- R109 and R137: ENC_RAW and AS_RAW. -/
def Obligations.RawOperationsReturnTheWordUnchanged : Prop :=
  ∀ (q : Request) (s : State), (q.op = 0x8#4 ∨ q.op = 0xE#4) → q.rsv = 0#17 →
    exec (decode q) s = .next { s with resp := some ⟨q.a, 0#48, .ok⟩ }

/-! ## CLASSIFY and the partition of the words -/

/-- R131, with the ranges of R72. -/
def Obligations.ClassifyAnswersTheCodeOfTheRange : Prop :=
  ∀ (q : Request) (s : State), q.op = 0x9#4 → q.rsv = 0#17 →
    ∃ c : Word, exec (decode q) s = .next { s with resp := some ⟨c, 0#48, .ok⟩ } ∧
      (q.a.toNat ≤ 0xFFF8FFFFFFFFFFFF → c = 0#64) ∧
      (0xFFF9000000000000 ≤ q.a.toNat → q.a.toNat ≤ 0xFFF9FFFFFFFFFFFF → c = 1#64) ∧
      (0xFFFA000000000000 ≤ q.a.toNat → q.a.toNat ≤ 0xFFFAFFFFFFFFFFFF → c = 2#64) ∧
      (0xFFFB000000000000 ≤ q.a.toNat → q.a.toNat ≤ 0xFFFBFFFFFFFFFFFF → c = 3#64) ∧
      (0xFFFC000000000000 ≤ q.a.toNat → q.a.toNat ≤ 0xFFFCFFFFFFFFFFFF → c = 4#64) ∧
      (0xFFFD000000000000 ≤ q.a.toNat → q.a.toNat ≤ 0xFFFDFFFFFFFFFFFF → c = 5#64) ∧
      (0xFFFE000000000000 ≤ q.a.toNat → q.a.toNat ≤ 0xFFFEFFFFFFFFFFFF → c = 6#64) ∧
      (0xFFFF000000000000 ≤ q.a.toNat → q.a.toNat ≤ 0xFFFFFFFFFFFFFFFF → c = 7#64)

/-- R72: "Every 64-bit word falls in exactly one row", and its row's variant and code are the word's. The table's TAG
column is the top 16 bits of the range. -/
def Obligations.EveryWordFallsInExactlyOneRow : Prop :=
  ∀ w : Word, ∃! row : Nat × Nat × Variant × Nat,
    row ∈ [(0, 0xFFF8FFFFFFFFFFFF, Variant.double, 0),
      (0xFFF9000000000000, 0xFFF9FFFFFFFFFFFF, Variant.null, 1),
      (0xFFFA000000000000, 0xFFFAFFFFFFFFFFFF, Variant.undefined, 2),
      (0xFFFB000000000000, 0xFFFBFFFFFFFFFFFF, Variant.bool, 3),
      (0xFFFC000000000000, 0xFFFCFFFFFFFFFFFF, Variant.integer, 4),
      (0xFFFD000000000000, 0xFFFDFFFFFFFFFFFF, Variant.string, 5),
      (0xFFFE000000000000, 0xFFFEFFFFFFFFFFFF, Variant.custom, 6),
      (0xFFFF000000000000, 0xFFFFFFFFFFFFFFFF, Variant.empty, 7)] ∧
    row.1 ≤ w.toNat ∧ w.toNat ≤ row.2.1 ∧
    classifyWord w = row.2.2.1 ∧ (classifyWord w).code.toNat = row.2.2.2 ∧
    row.1 / 2 ^ 48 ≤ (tagOf w).toNat ∧ (tagOf w).toNat ≤ row.2.1 / 2 ^ 48

/-- R32: for every word above the boundary the code is TAG - 0xFFF8, and no word's code is above 7 (R73). -/
def Obligations.VariantCodeIsTagMinusBoundaryTag : Prop :=
  ∀ w : Word,
    (classifyWord w).code.toNat = (w.toNat / 2 ^ 48) - 0xFFF8 ∧ (classifyWord w).code.toNat ≤ 7

/-- R138: a word is what its variant and its payload say it is. -/
def Obligations.DecodedVariantAndPayloadDetermineTheWord : Prop :=
  ∀ v w : Word, decodeWord v = decodeWord w → v = w

/-! ## Accessors -/

/-- R133: under its guard, TAG(w) = 0xFFFB. -/
def Obligations.AsBoolIsTrueIffPayloadNonzero : Prop :=
  ∀ (q : Request) (s : State), q.op = 0xA#4 → q.rsv = 0#17 → q.a.extractLsb' 48 16 = 0xFFFB#16 →
    exec (decode q) s = .next
      { s with resp := some ⟨if q.a.extractLsb' 0 48 = 0#48 then 0#64 else 1#64, 0#48, .ok⟩ }

/-- R134 and R135: under their guards, TAG(w) = 0xFFFC and 0xFFFE. -/
def Obligations.AsIntAndAsCustomZeroExtendThePayload : Prop :=
  ∀ (q : Request) (s : State), q.rsv = 0#17 →
    ((q.op = 0xB#4 ∧ q.a.extractLsb' 48 16 = 0xFFFC#16) ∨ (q.op = 0xC#4 ∧ q.a.extractLsb' 48 16 = 0xFFFE#16)) →
    exec (decode q) s = .next { s with resp := some ⟨(q.a.extractLsb' 0 48).setWidth 64, 0#48, .ok⟩ }

/-- R136 with UNPACK5 of R54: under its guard, TAG(w) = 0xFFFD; the five low bytes and the terminator. -/
def Obligations.AsStrCopiesFiveBytesAndATerminator : Prop :=
  ∀ (q : Request) (s : State), q.op = 0xD#4 → q.rsv = 0#17 → q.a.extractLsb' 48 16 = 0xFFFD#16 →
    ∃ o : Payload, exec (decode q) s = .next { s with resp := some ⟨0#64, o, .ok⟩ } ∧
      (∀ i < 5, o.extractLsb' (8 * i) 8 = q.a.extractLsb' (8 * i) 8) ∧ o.extractLsb' 40 8 = 0#8

/-- R132: a guarded accessor on a word of another variant. The response's two values are the draws, whatever their
number; AS_RAW has no guard and sets no mark. -/
def Obligations.WrongVariantGivesDrawsAndSetsTheMark : Prop :=
  ∀ (q : Request) (s : State), q.rsv = 0#17 →
    ((q.op = 0xA#4 ∧ (classifyWord q.a).code ≠ 3#4) ∨ (q.op = 0xB#4 ∧ (classifyWord q.a).code ≠ 4#4) ∨
      (q.op = 0xC#4 ∧ (classifyWord q.a).code ≠ 6#4) ∨ (q.op = 0xD#4 ∧ (classifyWord q.a).code ≠ 5#4) →
      exec (decode q) s = .next { s with
        resp := some ⟨Config.drawR s.draws, Config.drawSOut s.draws, .ok⟩
        contractViolated := true
        draws := s.draws + 1 }) ∧
    (q.op = 0xE#4 → exec (decode q) s = .next { s with resp := some ⟨q.a, 0#48, .ok⟩ })

/-! ## Illegal requests, status, totality -/

/-- R83 and R161: the fields of the request other than op and rsv play no part. -/
def Obligations.IllegalRequestAnswersZeroAndItsStatus : Prop :=
  ∀ (q : Request) (s : State), (q.op = 0xF#4 ∨ q.rsv ≠ 0#17) →
    exec (decode q) s = .next { s with resp := some ⟨0#64, 0#48, .illegalRequest⟩ }

/-- R162: the status code is 0b01 for an illegal request and 0b00 for every legal one, contract violations among
them; no other code is driven. -/
def Obligations.StatusTellsLegalFromIllegal : Prop :=
  ∀ (q : Request) (s : State), ∃ (t : State) (p : Response),
    exec (decode q) s = .next t ∧ t.resp = some p ∧
    ((q.op = 0xF#4 ∨ q.rsv ≠ 0#17) → p.status.code = 0b01#2) ∧
    (¬ (q.op = 0xF#4 ∨ q.rsv ≠ 0#17) → p.status.code = 0b00#2)

/-- R27, R50, R160: every instruction in every state gives a response and changes nothing of the host's side: no byte
of memory, no agent. -/
def Obligations.EveryInstructionRespondsAndTouchesNoMemory : Prop :=
  ∀ (i : Instr) (s : State), ∃ (t : State) (p : Response),
    exec i s = .next t ∧ t.resp = some p ∧ (∀ x : Nat, t.mem.read x = s.mem.read x) ∧ t.mem = s.mem ∧
    t.agents = s.agents ∧ t.hostEndian = s.hostEndian ∧ t.turn = s.turn ∧
    (i.guardHolds = true → t.contractViolated = s.contractViolated ∧ t.draws = s.draws)

/-- R28: outside contract violations a response depends on its own request alone, so on no earlier one, on no
memory and not on HOST_ENDIAN (R56). -/
def Obligations.ResponseDependsOnTheRequestAlone : Prop :=
  ∀ (i : Instr) (s s' t t' : State), i.guardHolds = true →
    exec i s = .next t → exec i s' = .next t' → t.resp = t'.resp

/-- R171: the order in which two requests are served changes neither response. -/
def Obligations.OrderOfTwoRequestsChangesNoResponse : Prop :=
  ∀ (i j : Instr) (s : State), i.guardHolds = true → j.guardHolds = true →
    ∃ t u t' u' : State,
      exec i s = .next t ∧ exec j t = .next u ∧ exec j s = .next t' ∧ exec i t' = .next u' ∧
      t.resp = u'.resp ∧ u.resp = t'.resp

/-- R84: two legal requests of one op that agree on the fields the op reads give the same; a reserved bit that is set
makes the request illegal. -/
def Obligations.UnusedFieldsHaveNoEffect : Prop :=
  (∀ (q q' : Request) (s : State), q.rsv = 0#17 → q'.rsv = 0#17 → q.op = q'.op →
    (q.op ≠ 0x1#4 → q.op ≠ 0x2#4 → q.op ≠ 0x3#4 → q.op ≠ 0x6#4 → q.a = q'.a) →
    (q.op = 0x6#4 → q.sAvail = q'.sAvail ∧
      ∀ i < min q.sAvail.toNat 5, q.sIn.toList.getD i 0#8 = q'.sIn.toList.getD i 0#8) →
    exec (decode q) s = exec (decode q') s) ∧
  (∀ (q : Request) (s : State), q.rsv ≠ 0#17 →
    exec (decode q) s = .next { s with resp := some ⟨0#64, 0#48, .illegalRequest⟩ })

/-! ## Laws of the codec -/

/-- R110: `classify(encodeV(P)) == V` for every encoder but ENC_RAW. -/
def Obligations.ClassifyOfAnEncodedValueIsItsVariant : Prop :=
  ∀ (v : Variant) (i : Instr) (s : State),
    ((v = .double ∧ ∃ a, i = .encDouble a) ∨ (v = .null ∧ i = .encNull) ∨ (v = .undefined ∧ i = .encUndef) ∨
      (v = .empty ∧ i = .encEmpty) ∨ (v = .bool ∧ ∃ a, i = .encBool a) ∨ (v = .integer ∧ ∃ a, i = .encInt a) ∨
      (v = .string ∧ ∃ n l, i = .encStr n l) ∨ (v = .custom ∧ ∃ a, i = .encCustom a)) →
    ∃ (t u : State) (p : Response), exec i s = .next t ∧ t.resp = some p ∧
      exec (.classify p.r) t = .next u ∧ u.resp = some ⟨v.code.setWidth 64, 0#48, .ok⟩

/-- R111: two foreign NaNs collapse to one word, other words are kept, and encoding twice is encoding once. -/
def Obligations.CanonicalisationCollapsesForeignNansOnly : Prop :=
  (∀ x y : Word, 0xFFF8FFFFFFFFFFFF < x.toNat → 0xFFF8FFFFFFFFFFFF < y.toNat →
    canonicalize x = canonicalize y ∧ canonicalize x = 0x7FF8000000000000#64) ∧
  (∀ x : Word, x.toNat ≤ 0xFFF8FFFFFFFFFFFF → canonicalize x = x) ∧
  (∀ x : Word, canonicalize (canonicalize x) = canonicalize x ∧ (canonicalize x).toNat ≤ 0xFFF8FFFFFFFFFFFF)

/-- R139, R112: the accessor recovers the payload, an integer modulo 2^48. -/
def Obligations.AccessorRecoversTheEncodedPayload : Prop :=
  ∀ (a : Word) (s : State), ∃ t u : State, ∃ p : Response, ∃ o : Response,
    ∃ t₁ u₁ : State, ∃ p₁ o₁ : Response, ∃ t₂ u₂ : State, ∃ p₂ o₂ : Response,
    (exec (.encInt a) s = .next t ∧ t.resp = some p ∧ exec (.asInt p.r) t = .next u ∧ u.resp = some o ∧
      o.r.toNat = a.toNat % 2 ^ 48 ∧ u.contractViolated = s.contractViolated) ∧
    (exec (.encCustom a) s = .next t₁ ∧ t₁.resp = some p₁ ∧ exec (.asCustom p₁.r) t₁ = .next u₁ ∧
      u₁.resp = some o₁ ∧ o₁.r.toNat = a.toNat % 2 ^ 48 ∧ u₁.contractViolated = s.contractViolated) ∧
    (exec (.encBool a) s = .next t₂ ∧ t₂.resp = some p₂ ∧ exec (.asBool p₂.r) t₂ = .next u₂ ∧
      u₂.resp = some o₂ ∧ (o₂.r = 1#64 ↔ a ≠ 0#64) ∧ (o₂.r = 0#64 ↔ a = 0#64) ∧
      u₂.contractViolated = s.contractViolated)

/-- R139 for a string: the text of the lanes comes back, zero-padded to six lanes. -/
def Obligations.AsStrRecoversTheTextZeroPadded : Prop :=
  ∀ (n : BitVec 3) (l : Lanes) (s : State), ∃ (t u : State) (p o : Response),
    exec (.encStr n l) s = .next t ∧ t.resp = some p ∧ exec (.asStr p.r) t = .next u ∧ u.resp = some o ∧
    (∀ i < 6, laneOut o.sOut i =
      ((l.toList.take (min n.toNat 5)).takeWhile (· != 0#8)).getD i 0#8) ∧
    o.r = 0#64 ∧ o.status = .ok ∧ u.contractViolated = s.contractViolated

/-- R36, on numbers: NaN is an absolute value above that of infinity (R35), zero an absolute value 0. -/
def Obligations.TaggedEqIsFloatEqualityOnDoublesAndBitEqualityElsewhere : Prop :=
  ∀ x y : Word, taggedEq x y = true ↔
    (x.toNat ≤ 0xFFF8FFFFFFFFFFFF ∧ y.toNat ≤ 0xFFF8FFFFFFFFFFFF ∧
      x.toNat % 2 ^ 63 ≤ 0x7FF0000000000000 ∧ y.toNat % 2 ^ 63 ≤ 0x7FF0000000000000 ∧
      (x = y ∨ (x.toNat % 2 ^ 63 = 0 ∧ y.toNat % 2 ^ 63 = 0))) ∨
    (0xFFF8FFFFFFFFFFFF < x.toNat ∧ 0xFFF8FFFFFFFFFFFF < y.toNat ∧ x = y)

/-! ## The request and response format -/

/-- R80: the bundle and the 128 packed bits are the same thing, no bit lost either way. -/
def Obligations.PackedRequestAndBundleAgree : Prop :=
  (∀ q : Request, Request.ofBits q.bits = q) ∧ (∀ w : BitVec 128, (Request.ofBits w).bits = w)

/-- R80, R82: decoding an encoded well-formed instruction gives it back. -/
def Obligations.DecodeOfEncodeIsTheInstruction : Prop :=
  ∀ i : Instr, i.wf = true → decodeBits (encodeBits i) = i

/-- Every request decodes to a well-formed instruction, and the encoder's request of it decodes to it again. -/
def Obligations.DecodedInstructionIsWellFormedAndStable : Prop :=
  ∀ w : BitVec 128, (decodeBits w).wf = true ∧ decodeBits (encodeBits (decodeBits w)) = decodeBits w

/-- R82 and spec/opcode_table.json: a REQ_LO fits at most one row; it fits row k of the fifteen exactly when the
decoder reads a legal instruction with that op; it fits the last row exactly when its op is 0xF. -/
def Obligations.OpcodeTableAndDecoderAgree : Prop :=
  ∀ hi lo : Word,
    (∀ r ∈ opcodeTable, ∀ r' ∈ opcodeTable, r.holds lo = true → r'.holds lo = true → r = r') ∧
    (∀ r ∈ opcodeTable, r.op ≠ 0xF#4 → (r.holds lo = true ↔
      (decode (Request.unpack hi lo)).op = r.op ∧
        ∀ op rsv, decode (Request.unpack hi lo) ≠ .reserved op rsv)) ∧
    (∀ r ∈ opcodeTable, r.op = 0xF#4 → (r.holds lo = true ↔
      ∃ rsv, decode (Request.unpack hi lo) = .reserved 0xF#4 rsv))

/-- Words of 95_test_vectors, written out by hand. That the last two are illegal is the spec's; that an illegal request is
the constructor `reserved` with its op and `rsv` (log 15), and that REQ_LO bit 4 is bit 0 and bit 56 is bit 9 of `rsv`
(log 13), are the model's choice. -/
def Obligations.SampleRequestsDecodeAsTheSpecSays : Prop :=
  decode (Request.unpack 0x00000000075BCD15#64 0x0000000000000005#64) = .encInt 0x00000000075BCD15#64 ∧
  decode (Request.unpack 0#64 0x0045444342410506#64) =
    .encStr 5#3 #v[0x41#8, 0x42#8, 0x43#8, 0x44#8, 0x45#8] ∧
  decode (Request.unpack 0xFFFD004544434241#64 0x000000000000000D#64) = .asStr 0xFFFD004544434241#64 ∧
  decode (Request.unpack 0#64 0x0000000000000011#64) = .reserved 0x1#4 0x1#17 ∧
  decode (Request.unpack 0#64 0x0100000000000001#64) = .reserved 0x1#4 0x200#17

/-- R86: where the fields of a response stand in RESP_HI and RESP_LO. -/
def Obligations.PackedResponseHasTheFieldsOfTheBundle : Prop :=
  ∀ p : Response,
    p.hi = p.r ∧ (∀ i < 6, p.lo.extractLsb' (8 * i) 8 = p.sOut.extractLsb' (8 * i) 8) ∧
    p.lo.extractLsb' 48 2 = p.status.code ∧ p.lo.extractLsb' 50 14 = 0#14 ∧
    (p.status = .ok → p.status.code = 0b00#2) ∧ (p.status = .illegalRequest → p.status.code = 0b01#2)

/-- R55: the image of a word under either byte order, read back under the same one; the two orders mirror each
other. -/
def Obligations.MemoryImageReadsBackAsTheWord : Prop :=
  ∀ w : Word, (∀ e, wordOfImage e (imageByte e w) = w) ∧
    (∀ j < 8, imageByte .le w j = w.extractLsb' (8 * j) 8) ∧
    (∀ j < 8, imageByte .be w j = w.extractLsb' (8 * (7 - j)) 8)

/-- R88: `enc.str "<text>"` stores the bytes before the first NUL, at most five, zero-padded. -/
def Obligations.AssembledTextIsStoredUpToFirstNul : Prop :=
  ∀ (text : List Byte) (s : State), ∃ r : Word,
    exec (Asm.encStrText text) s = .next { s with resp := some ⟨r, 0#48, .ok⟩ } ∧
    r.extractLsb' 48 16 = 0xFFFD#16 ∧
    ∀ i < 6, r.extractLsb' (8 * i) 8 = ((text.takeWhile (· != 0#8)).take 5).getD i 0#8

/-- R87, R88 on lines written out by hand. -/
def Obligations.SampleLinesAssembleAsTheSpecSays : Prop :=
  Asm.parse "enc.int 123456789".toList = some (.request (.encInt 0x075BCD15#64)) ∧
  Asm.parse "enc.str n=5, lanes=4544434241".toList =
    some (.request (.encStr 5#3 #v[0x41#8, 0x42#8, 0x43#8, 0x44#8, 0x45#8])) ∧
  Asm.parse "enc.true".toList = some (.request (.encBool 1#64)) ∧
  Asm.parse "is.null 0xFFF9_0000_0000_0000".toList = some (.typeTest .null 0xFFF9000000000000#64)

/-! ## The step -/

/-- A step runs the decoded instruction: when the agent whose turn it is presents a request, the step is exec of the
decoded request; a next state has its response delivered to that agent, and the turn is passed on. -/
def Obligations.StepRunsTheDecodedRequest : Prop :=
  ∀ (s : State) (a : Agent) (q : Request) (reply : Reply),
    s.current = some a → a.phase = .presenting q reply →
    (∀ t, exec (decode q) s = .next t → step s = .next (deliver reply a t).pass) ∧
    (∀ f, exec (decode q) s = .fault f → step s = .fault f) ∧
    (∀ r, exec (decode q) s = .refused r → step s = .refused r)

/-- `withFetchWord` presents the 128 bits so that the very next step serves them. -/
def Obligations.FetchWordIsServedByTheNextStep : Prop :=
  ∀ (s : State) (w : BitVec 128),
    decodeTableWord 128 w.toNat = some (decodeBits w) ∧
    ∃ (a : Agent) (p : Response) (t u : State),
      (s.withFetchWord 128 w.toNat).current = some a ∧
      exec (decodeBits w) (s.withFetchWord 128 w.toNat) = .next t ∧ t.resp = some p ∧
      step (s.withFetchWord 128 w.toNat) = .next u ∧ u.resp = some p ∧
      u.agents.head? = some { (a.setVar 0 p.r).advance with st := p.status }

/-- The reset state: R181, and the harness's start of 95 L3 (one agent, log 12). -/
def Obligations.ResetHasNoResponseAndTheHarnessStart : Prop :=
  State.reset.resp = none ∧ State.reset.contractViolated = false ∧
  (∀ x, State.reset.mem.read x = 0#8) ∧
  (∀ a ∈ State.reset.agents, a.pc = 0 ∧ a.st.code = 0b00#2 ∧ a.prog = [] ∧ ∀ v, a.getVar v = 0#64)

/-- The invariant holds at reset. The memory and the agent are the harness's start (95 L3); that there is one agent
(log 12) and that the turn is 0 (log 11) are the model's choice, and the turn clause rests on both. -/
def Obligations.ResetMeetsTheMachineInvariant : Prop := State.reset.Inv

/-- Every step keeps the invariant. What it says of addresses below 2^64 (log 7), of the adapter's state between two of
its byte accesses (log 9) and of the turn (log 11) is about the model's own form of them. -/
def Obligations.StepKeepsTheMachineInvariant : Prop :=
  ∀ s t : State, s.Inv → step s = .next t → t.Inv

/-- R160: the machine never stops, in any state. -/
def Obligations.StepNeverStops : Prop := ∀ s : State, ∃ t : State, step s = .next t

/-- R164, R185: nothing clears the mark, and only an agent that breaks the contract sets it. -/
def Obligations.MarkIsSetExactlyByABrokenContract : Prop :=
  ∀ s t : State, step s = .next t →
    (t.contractViolated = true ↔ s.contractViolated = true ∨ s.callerObeys = false)

/-- R23, R171: a step changes neither HOST_ENDIAN, nor any agent but the one whose turn it is, nor any program, nor
how many agents there are. -/
def Obligations.StepTouchesOnlyTheAgentWhoseTurnItIs : Prop :=
  ∀ s t : State, step s = .next t →
    t.hostEndian = s.hostEndian ∧ t.agents.length = s.agents.length ∧
    (∀ k : Nat, k ≠ s.turn → t.agents[k]? = s.agents[k]?) ∧
    (∀ k : Nat, (t.agents[k]?).map Agent.prog = (s.agents[k]?).map Agent.prog)

/-- R59, R61: outside the harness's own commands a step changes at most one byte of the caller's memory: the first of
the lanes still to be written, at the adapter's address. Reading lanes and serving a request change none.
One byte access a step, addresses that wrap and one memory for all agents are the model's (logs 9, 7, 27). -/
def Obligations.AdapterChangesOneByteAtATime : Prop :=
  ∀ (s t : State) (a : Agent), Memory.wf s.mem → s.current = some a → step s = .next t →
    (∀ addr got d, a.phase = .loading addr got d → ∀ x, t.mem.read x = s.mem.read x) ∧
    (∀ q reply, a.phase = .presenting q reply → ∀ x, t.mem.read x = s.mem.read x) ∧
    (∀ addr b rest, a.phase = .storing addr (b :: rest) →
      ∀ x, t.mem.read x = if x = (addr + 0#64).toNat then b else s.mem.read x)

/-- R51, R53: the adapter's ENC_STRING. With one agent, from the first lane read, the variable holds the String word
of the text at `addr` (its first five bytes, up to the first zero one) after at most six steps; the memory is
unchanged, and the lanes that were not read have no effect. The number of steps rests on the model's choices of one byte access a
step (log 9) and of serving as one step (log 22), the addresses on log 7. -/
def Obligations.AdapterEncodesTheTextInMemory : Prop :=
  ∀ (s : State) (a : Agent) (addr : Word) (d : VarId),
    s.agents = [a] → s.turn = 0 → a.phase = .loading addr [] d →
    ∃ (n : Nat) (t : State) (r : Word), n ≤ 6 ∧ core.run n s = .next t ∧
      t.agents = [{ (a.setVar d r).advance with st := .ok }] ∧
      t.mem = s.mem ∧ t.contractViolated = s.contractViolated ∧
      r.extractLsb' 48 16 = 0xFFFD#16 ∧
      ∀ i < 6, r.extractLsb' (8 * i) 8 =
        (((List.range 5).map (fun j => s.mem.read (addr + BitVec.ofNat 64 j).toNat)).takeWhile
          (· != 0#8)).getD i 0#8

/-- R51, R136: the adapter's AS_STRING. With one agent that presents a String word with a buffer at `addr`, after
seven steps the buffer holds the five low bytes of the word and the terminator, and every other byte of memory is
as before. The number of steps rests on the model's choices of one byte access a step (log 9) and of serving as one step
(log 22), the addresses on log 7. -/
def Obligations.AdapterWritesTheSixByteBuffer : Prop :=
  ∀ (s : State) (a : Agent) (q : Request) (addr : Word),
    Memory.wf s.mem → s.agents = [a] → s.turn = 0 → a.phase = .presenting q (.toBuffer addr) →
    q.op = 0xD#4 → q.rsv = 0#17 → q.a.extractLsb' 48 16 = 0xFFFD#16 →
    ∃ t : State, core.run 7 s = .next t ∧
      t.agents = [{ a.advance with st := .ok }] ∧ t.contractViolated = s.contractViolated ∧
      (∀ i < 5, t.mem.read (addr + BitVec.ofNat 64 i).toNat = q.a.extractLsb' (8 * i) 8) ∧
      t.mem.read (addr + 5#64).toNat = 0#8 ∧
      (∀ x, (∀ i < 6, x ≠ (addr + BitVec.ofNat 64 i).toNat) → t.mem.read x = s.mem.read x)

/-- 95 L3: the commands that move values and control. Each is one step of the agent whose turn it is; nothing else of
the state changes but the turn and its draw. -/
def Obligations.HarnessMovesAndBranches : Prop :=
  ∀ (s : State) (a : Agent) (c : Command),
    s.current = some a → a.phase = .ready → a.prog[a.pc]? = some c →
    ∀ a' : Agent,
      ((∃ d k, c = .mov d k ∧ a' = (a.setVar d k).advance) ∨
       (∃ d v k, c = .add d v k ∧ a' = (a.setVar d (a.getVar v + k)).advance) ∨
       (∃ x y t, c = .beq x y t ∧ a' = if a.getVar x = a.operand y then { a with pc := t } else a.advance) ∨
       (∃ x y t, c = .bne x y t ∧ a' = if a.getVar x ≠ a.operand y then { a with pc := t } else a.advance) ∨
       (∃ t, c = .jmp t ∧ a' = { a with pc := t }) ∨
       (c = .halt ∧ a' = a)) →
      ∃ n m : Nat, step s = .next { s with agents := s.agents.set s.turn a', turn := n, draws := m }

/-- 95 L3: `ld64` and `st64`, the memory image under HOST_ENDIAN (R55). One step each, addresses that wrap and one
memory for all agents are the model's choice (logs 19, 7, 27). -/
def Obligations.HarnessLoadsAndStoresImages : Prop :=
  ∀ (s : State) (a : Agent), Memory.wf s.mem → s.current = some a → a.phase = .ready →
    (∀ d v, a.prog[a.pc]? = some (.ld64 d v) → ∃ (t : State) (w : Word),
      step s = .next t ∧ t.mem = s.mem ∧ t.agents = s.agents.set s.turn (a.setVar d w).advance ∧
      ∀ j < 8, imageByte s.hostEndian w j = s.mem.read (a.getVar v + BitVec.ofNat 64 j).toNat) ∧
    (∀ v addr, a.prog[a.pc]? = some (.st64 v addr) → ∃ t : State,
      step s = .next t ∧ t.agents = s.agents.set s.turn a.advance ∧
      (∀ j < 8, t.mem.read (addr + BitVec.ofNat 64 j).toNat = imageByte s.hostEndian (a.getVar v) j) ∧
      (∀ x, (∀ j < 8, x ≠ (addr + BitVec.ofNat 64 j).toNat) → t.mem.read x = s.mem.read x))

/-- 95 L3: the commands that present a request, with the operand's value as REQ_HI. -/
def Obligations.HarnessPresentsRequests : Prop :=
  ∀ (s : State) (a : Agent), s.current = some a → a.phase = .ready →
    (∀ hi lo d, a.prog[a.pc]? = some (.req hi lo d) → ∃ t : State,
      step s = .next t ∧ t.mem = s.mem ∧ t.resp = s.resp ∧ t.contractViolated = s.contractViolated ∧
      t.agents = s.agents.set s.turn
        { a with phase := .presenting (Request.unpack (a.operand hi) lo) (.toVar d) }) ∧
    (∀ v addr, a.prog[a.pc]? = some (.asStrAt v addr) → ∃ t : State,
      step s = .next t ∧ t.mem = s.mem ∧ t.resp = s.resp ∧ t.contractViolated = s.contractViolated ∧
      t.agents = s.agents.set s.turn
        { a with phase := .presenting (encode (.asStr (a.getVar v))) (.toBuffer addr) }) ∧
    (∀ addr d, a.prog[a.pc]? = some (.encStrAt addr d) → ∃ t : State,
      step s = .next t ∧ t.mem = s.mem ∧ t.resp = s.resp ∧ t.contractViolated = s.contractViolated ∧
      t.agents = s.agents.set s.turn { a with phase := .loading addr [] d })
end

