-- ==== Sys2Proof/Laws/Memory.lean ====
section
/-! SUPPORT. The laws of the caller's memory: a read after a write, and that every operation keeps the canonical
form. -/

namespace Sys2Proof.Machine.Memory

/-- An address below every listed one reads as an unlisted address. -/
theorem read_eq_blank_of_lt (m : Memory) (a : Nat) (h : ∀ c ∈ m, a < c.1) : read m a = blank := by
  induction m with
  | nil => rfl
  | cons c rest ih =>
    have hc := h c (by simp)
    simp only [read]
    rw [if_neg (by omega)]
    exact ih fun d hd => h d (by simp [hd])

/-- Reading one byte after writing one: the byte written, or the byte that stood there. -/
theorem read_write (m : Memory) (hm : m.wf) (a x : Nat) (b : Byte) :
    read (write m a b) x = if x = a then b else read m x := by
  induction m with
  | nil =>
    by_cases hb : b = blank <;> by_cases hx : x = a <;> simp [write, read, hb, hx, Ne.symm]
  | cons c rest ih =>
    obtain ⟨k, v⟩ := c
    have hr : Memory.wf rest := ⟨(List.pairwise_cons.mp hm.1).2, fun c hc => hm.2 c (by simp [hc])⟩
    have hk : ∀ c ∈ rest, k < c.1 := (List.pairwise_cons.mp hm.1).1
    by_cases h1 : a < k
    · have hblank : read ((k, v) :: rest) a = blank :=
        read_eq_blank_of_lt _ _ fun c hc => by
          rcases List.mem_cons.mp hc with rfl | hc
          · exact h1
          · exact lt_trans h1 (hk c hc)
      by_cases hb : b = blank
      · rw [write, if_pos h1, if_pos hb]
        by_cases hx : x = a
        · rw [if_pos hx, hx, hblank, hb]
        · rw [if_neg hx]
      · rw [write, if_pos h1, if_neg hb]
        by_cases hx : x = a
        · simp [read, hx]
        · rw [if_neg hx]; simp only [read]; rw [if_neg (fun h => hx h.symm)]
    · by_cases h2 : a = k
      · subst h2
        have hblank : read rest a = blank := read_eq_blank_of_lt _ _ hk
        by_cases hb : b = blank
        · by_cases hx : x = a
          · subst hx; simp [write, hb, hblank]
          · simp [write, hb, read, hx, eq_comm]
            intro h; exact absurd h.symm hx
        · by_cases hx : x = a
          · simp [write, hb, read, hx]
          · simp [write, hb, read, Ne.symm (Ne.intro hx), hx]
      · rw [write, if_neg h1, if_neg h2]
        simp only [read]
        by_cases hx : k = x
        · have : x ≠ a := by omega
          simp [hx, this]
        · simp only [hx, if_false]; exact ih hr

/-- What a write lists: nothing new but the cell written. -/
theorem mem_write (m : Memory) (a : Nat) (b : Byte) :
    ∀ c ∈ write m a b, c ∈ m ∨ (c = (a, b) ∧ b ≠ blank) := by
  induction m with
  | nil => intro c; by_cases hb : b = blank <;> simp +contextual [write, hb]
  | cons d rest ih =>
    obtain ⟨k, v⟩ := d
    intro c hc
    unfold write at hc
    split at hc
    · split at hc
      · exact .inl hc
      · rcases List.mem_cons.mp hc with rfl | hc
        · exact .inr ⟨rfl, ‹_›⟩
        · exact .inl hc
    · split at hc
      · rename_i _ hak
        split at hc
        · exact .inl (List.mem_cons_of_mem _ hc)
        · rcases List.mem_cons.mp hc with rfl | hc
          · exact .inr ⟨by rw [hak], ‹_›⟩
          · exact .inl (List.mem_cons_of_mem _ hc)
      · rcases List.mem_cons.mp hc with rfl | hc
        · exact .inl (by simp)
        · rcases ih c hc with h | h
          · exact .inl (List.mem_cons_of_mem _ h)
          · exact .inr h

/-- A write keeps the canonical form. -/
theorem wf_write (m : Memory) (hm : m.wf) (a : Nat) (ha : a < 2 ^ 64) (b : Byte) : Memory.wf (write m a b) := by
  refine ⟨?_, fun c hc => ?_⟩
  · induction m with
    | nil => by_cases hb : b = blank <;> simp [write, hb]
    | cons c rest ih =>
      obtain ⟨k, v⟩ := c
      have hp := List.pairwise_cons.mp hm.1
      have hr : Memory.wf rest := ⟨hp.2, fun c hc => hm.2 c (by simp [hc])⟩
      unfold write
      split
      · rename_i hak
        split
        · exact hm.1
        · refine List.pairwise_cons.mpr ⟨fun c hc => ?_, hm.1⟩
          rcases List.mem_cons.mp hc with rfl | hc
          · exact hak
          · exact lt_trans hak (hp.1 c hc)
      · split
        · split
          · exact hp.2
          · exact List.pairwise_cons.mpr ⟨hp.1, hp.2⟩
        · refine List.pairwise_cons.mpr ⟨fun c hc => ?_, ih hr⟩
          rcases mem_write rest a b c hc with h | ⟨rfl, -⟩
          · exact hp.1 c h
          · show k < a
            omega
  · rcases mem_write m a b c hc with h | ⟨rfl, hb⟩
    · exact hm.2 c h
    · exact ⟨ha, hb⟩

theorem cellAt_lt (base : Word) (i : Nat) : cellAt base i < 2 ^ 64 := (base + BitVec.ofNat 64 i).isLt

/-- Writing several bytes keeps the canonical form. -/
theorem wf_writeBytes (bytes : List Byte) (m : Memory) (hm : m.wf) (base : Word) :
    Memory.wf (writeBytes m base bytes) := by
  induction bytes generalizing m base with
  | nil => exact hm
  | cons b rest ih => exact ih _ (wf_write m hm _ (cellAt_lt base 0) b) _

end Sys2Proof.Machine.Memory
end

