-- ==== Sys2Proof/Laws/Tag.lean ====
section
/-! SUPPORT. The word and its partition: fields of a tagged word, CLASSIFY by tag, and that no word is
Unrecognized (R73). -/

namespace Sys2Proof.Machine

/-- Bit i of a word made of a tag and a payload (R70). -/
theorem taggedWord_getLsbD (t : BitVec 16) (p : Payload) (i : Nat) :
    (taggedWord t p).getLsbD i = if i < 48 then p.getLsbD i else t.getLsbD (i - 48) := by
  simp only [taggedWord, BitVec.getLsbD_cast, BitVec.getLsbD_append]

@[simp] theorem tagOf_taggedWord (t : BitVec 16) (p : Payload) : tagOf (taggedWord t p) = t := by
  refine BitVec.eq_of_getLsbD_eq fun i hi => ?_
  simp [tagOf, taggedWord_getLsbD, hi]

@[simp] theorem payloadOf_taggedWord (t : BitVec 16) (p : Payload) : payloadOf (taggedWord t p) = p := by
  refine BitVec.eq_of_getLsbD_eq fun i hi => ?_
  simp [payloadOf, taggedWord_getLsbD, hi]

/-- A word is its tag and its payload. -/
theorem taggedWord_tagOf_payloadOf (w : Word) : taggedWord (tagOf w) (payloadOf w) = w := by
  refine BitVec.eq_of_getLsbD_eq fun i hi => ?_
  rw [taggedWord_getLsbD]
  simp only [tagOf, payloadOf, BitVec.getLsbD_extractLsb']
  split
  · rename_i h; simp [h]
  · rw [show 48 + (i - 48) = i by omega]; simp [show i - 48 < 16 by omega]

theorem tagOf_toNat (w : Word) : (tagOf w).toNat = w.toNat / 2 ^ 48 := by
  simp only [tagOf, BitVec.extractLsb'_toNat, Nat.shiftRight_eq_div_pow]
  exact Nat.mod_eq_of_lt (by have := w.isLt; omega)

theorem payloadOf_toNat (w : Word) : (payloadOf w).toNat = w.toNat % 2 ^ 48 := by
  simp [payloadOf, BitVec.extractLsb'_toNat]

theorem taggedWord_toNat (t : BitVec 16) (p : Payload) :
    (taggedWord t p).toNat = t.toNat * 2 ^ 48 + p.toNat := by
  simp only [taggedWord, BitVec.toNat_cast, BitVec.toNat_append]
  rw [← Nat.shiftLeft_add_eq_or_of_lt p.isLt, Nat.shiftLeft_eq]

/-- NUM_OK on numbers. -/
theorem numOk_iff (w : Word) : numOk w = true ↔ w.toNat ≤ 0xFFF8FFFFFFFFFFFF := by
  simp [numOk, boundary, BitVec.ule]

/-- NUM_OK by tag: the tags up to 0xFFF8 are Double (R72). -/
theorem numOk_iff_tag (w : Word) : numOk w = true ↔ (tagOf w).toNat ≤ 0xFFF8 := by
  rw [numOk_iff, tagOf_toNat]; omega

/-- CLASSIFY by tag, in numbers (R72). -/
theorem classifyWord_cases (w : Word) :
    ((tagOf w).toNat ≤ 0xFFF8 ∧ classifyWord w = .double) ∨
    (tagOf w = 0xFFF9#16 ∧ classifyWord w = .null) ∨
    (tagOf w = 0xFFFA#16 ∧ classifyWord w = .undefined) ∨
    (tagOf w = 0xFFFB#16 ∧ classifyWord w = .bool) ∨
    (tagOf w = 0xFFFC#16 ∧ classifyWord w = .integer) ∨
    (tagOf w = 0xFFFD#16 ∧ classifyWord w = .string) ∨
    (tagOf w = 0xFFFE#16 ∧ classifyWord w = .custom) ∨
    (tagOf w = 0xFFFF#16 ∧ classifyWord w = .empty) := by
  by_cases h : numOk w = true
  · exact .inl ⟨(numOk_iff_tag w).mp h, by rw [classifyWord, if_pos h]⟩
  · have hgt : 0xFFF8 < (tagOf w).toNat := by have := mt (numOk_iff_tag w).mpr h; omega
    have hlt : (tagOf w).toNat < 65536 := (tagOf w).isLt
    have key : tagOf w = 0xFFF9#16 ∨ tagOf w = 0xFFFA#16 ∨ tagOf w = 0xFFFB#16 ∨ tagOf w = 0xFFFC#16 ∨
        tagOf w = 0xFFFD#16 ∨ tagOf w = 0xFFFE#16 ∨ tagOf w = 0xFFFF#16 := by
      simp only [← BitVec.toNat_inj, BitVec.toNat_ofNat]
      omega
    refine .inr ?_
    rcases key with k | k | k | k | k | k | k <;> simp [classifyWord, h, k]

/-- The outcome Unrecognized is unreachable (R73). -/
theorem classifyWord_ne_unrecognized (w : Word) : classifyWord w ≠ .unrecognized := by
  rcases classifyWord_cases w with h | h | h | h | h | h | h | h <;> simp [h.2]

/-- CLASSIFY of a word of a reserved tag. -/
theorem classifyWord_of_tag (w : Word) (v : Variant) (t : BitVec 16) (hv : v.tag = some t) (h : tagOf w = t) :
    classifyWord w = v := by
  subst h
  rcases classifyWord_cases w with ⟨hn, hc⟩ | ⟨hn, hc⟩ | ⟨hn, hc⟩ | ⟨hn, hc⟩ | ⟨hn, hc⟩ | ⟨hn, hc⟩ | ⟨hn, hc⟩ | ⟨hn, hc⟩
  · cases v <;> simp [Variant.tag] at hv <;> simp [← hv] at hn
  all_goals (rw [hc]; rw [hn] at hv; cases v <;> simp [Variant.tag] at hv ⊢)

/-- The tag of a word that CLASSIFY gives a variant with a reserved tag. -/
theorem tagOf_of_classifyWord (w : Word) (v : Variant) (t : BitVec 16) (hv : v.tag = some t)
    (h : classifyWord w = v) : tagOf w = t := by
  subst h
  rcases classifyWord_cases w with ⟨hn, hc⟩ | ⟨hn, hc⟩ | ⟨hn, hc⟩ | ⟨hn, hc⟩ | ⟨hn, hc⟩ | ⟨hn, hc⟩ | ⟨hn, hc⟩ | ⟨hn, hc⟩
  all_goals (rw [hc] at hv; simp [Variant.tag] at hv)
  all_goals (rw [hn]; exact hv)

/-- A word of a tag and a payload as the encoders' rules write it: an OR of disjoint fields. -/
theorem taggedWord_eq_or (t : BitVec 16) (p : Payload) : taggedWord t p = taggedWord t 0#48 ||| zext64 p := by
  refine BitVec.eq_of_getLsbD_eq fun i hi => ?_
  simp only [zext64, BitVec.getLsbD_or, BitVec.getLsbD_setWidth, taggedWord_getLsbD]
  split
  · simp [hi]
  · rename_i h; simp [BitVec.getLsbD_of_ge p i (by omega)]

end Sys2Proof.Machine
end

