-- ==== Sys2Proof/Laws/Outcomes.lean ====
section
/-! SUPPORT. What each outcome of a request can do, said once: the shared operations, and exec by its guard. -/

namespace Sys2Proof.Machine

/-- The response of an accessor whose guard holds (R132). -/
theorem guarded_of_eq (own : Variant) (w r : Word) (o : Payload) (s : State) (h : classifyWord w = own) :
    guarded own w r o s = respond r o s := by rw [guarded, if_pos h]

/-- A guard that fails is a contract violation (R132). -/
theorem guarded_of_ne (own : Variant) (w r : Word) (o : Payload) (s : State) (h : classifyWord w ≠ own) :
    guarded own w r o s = violateContract s := by rw [guarded, if_neg h]

/-- CLASSIFY always responds: its fault is unreachable (R73). -/
theorem execClassify_eq (w : Word) (s : State) :
    execClassify w s = respond ((classifyWord w).code.setWidth 64) 0#48 s := by
  rw [execClassify, if_neg (classifyWord_ne_unrecognized w)]

/-- All that exec can do, by the guard: one response that depends on the instruction alone, or a contract
violation. -/
theorem exec_by_guard (i : Instr) :
    (i.guardHolds = true → ∃ p : Response, p.wf = true ∧ ∀ s, exec i s = .next { s with resp := some p }) ∧
    (i.guardHolds = false → ∀ s, exec i s = violateContract s) := by
  cases i
  case reserved op rsv => exact ⟨fun _ => ⟨_, by decide, fun _ => rfl⟩, by simp [Instr.guardHolds, Instr.guard]⟩
  case classify w =>
    refine ⟨fun _ => ⟨⟨(classifyWord w).code.setWidth 64, 0#48, .ok⟩, rfl, fun s => execClassify_eq w s⟩, ?_⟩
    simp [Instr.guardHolds, Instr.guard]
  case asBool w =>
    refine ⟨fun h => ⟨⟨payloadTruth w, 0#48, .ok⟩, rfl, fun s => ?_⟩, fun h s => ?_⟩
    · exact guarded_of_eq _ _ _ _ s (by simpa [Instr.guardHolds, Instr.guard] using h)
    · exact guarded_of_ne _ _ _ _ s (by simpa [Instr.guardHolds, Instr.guard] using h)
  case asInt w =>
    refine ⟨fun h => ⟨⟨zext64 (payloadOf w), 0#48, .ok⟩, rfl, fun s => ?_⟩, fun h s => ?_⟩
    · exact guarded_of_eq _ _ _ _ s (by simpa [Instr.guardHolds, Instr.guard] using h)
    · exact guarded_of_ne _ _ _ _ s (by simpa [Instr.guardHolds, Instr.guard] using h)
  case asCustom w =>
    refine ⟨fun h => ⟨⟨zext64 (payloadOf w), 0#48, .ok⟩, rfl, fun s => ?_⟩, fun h s => ?_⟩
    · exact guarded_of_eq _ _ _ _ s (by simpa [Instr.guardHolds, Instr.guard] using h)
    · exact guarded_of_ne _ _ _ _ s (by simpa [Instr.guardHolds, Instr.guard] using h)
  case asStr w =>
    refine ⟨fun h => ⟨⟨0#64, unpack5 w, .ok⟩, rfl, fun s => ?_⟩, fun h s => ?_⟩
    · exact guarded_of_eq _ _ _ _ s (by simpa [Instr.guardHolds, Instr.guard] using h)
    · exact guarded_of_ne _ _ _ _ s (by simpa [Instr.guardHolds, Instr.guard] using h)
  all_goals exact ⟨fun _ => ⟨_, rfl, fun _ => rfl⟩, by simp [Instr.guardHolds, Instr.guard]⟩

/-- The next state of exec: a response, and besides it at most the mark and the draw of a contract violation. -/
theorem exec_next (i : Instr) (s : State) :
    ∃ (p : Response) (cv : Bool) (n : Nat), p.wf = true ∧ (s.contractViolated = true → cv = true) ∧
      (i.guardHolds = true → cv = s.contractViolated) ∧
      exec i s = .next { s with resp := some p, contractViolated := cv, draws := n } := by
  cases h : i.guardHolds
  · refine ⟨⟨Config.drawR s.draws, Config.drawSOut s.draws, .ok⟩, true, s.draws + 1, rfl, fun _ => rfl, by simp, ?_⟩
    exact (exec_by_guard i).2 h s
  · obtain ⟨p, hp, he⟩ := (exec_by_guard i).1 h
    exact ⟨p, s.contractViolated, s.draws, hp, id, fun _ => rfl, he s⟩

end Sys2Proof.Machine
end

