-- ==== Sys2Proof/Laws/Request.lean ====
section
/-! SUPPORT. The request format: packing and unpacking, field by field. -/

namespace Sys2Proof

/-- The upper and the lower half of two halves joined. -/
theorem upper_of_append (hi lo : Word) : (((hi ++ lo).cast rfl : BitVec 128)).extractLsb' 64 64 = hi := by
  refine BitVec.eq_of_getLsbD_eq fun i hi => ?_
  simp only [BitVec.getLsbD_extractLsb', BitVec.getLsbD_cast, BitVec.getLsbD_append]
  rw [if_neg (by omega), show 64 + i - 64 = i by omega]
  simp [hi]

theorem lower_of_append (hi lo : Word) : (((hi ++ lo).cast rfl : BitVec 128)).extractLsb' 0 64 = lo := by
  refine BitVec.eq_of_getLsbD_eq fun i hi => ?_
  simp only [BitVec.getLsbD_extractLsb', BitVec.getLsbD_cast, BitVec.getLsbD_append]
  rw [if_pos (by omega)]
  simp [hi]

@[simp] theorem Request.hi_bits (q : Request) : q.bits.extractLsb' 64 64 = q.a := upper_of_append _ _

@[simp] theorem Request.lo_bits (q : Request) : q.bits.extractLsb' 0 64 = q.lo := lower_of_append _ _

/-- A packed request carries its two halves. -/
theorem Request.ofBits_append (hi lo : Word) : Request.ofBits ((hi ++ lo).cast rfl) = Request.unpack hi lo := by
  rw [Request.ofBits, upper_of_append, lower_of_append]

theorem Request.lo_op (q : Request) : q.lo.extractLsb' 0 4 = q.op := by
  refine BitVec.eq_of_getLsbD_eq fun i hi => ?_
  simp only [Request.lo, BitVec.getLsbD_extractLsb', BitVec.getLsbD_cast, BitVec.getLsbD_append]
  rw [if_pos (by omega)]
  simp [hi]

theorem Request.lo_sAvail (q : Request) : q.lo.extractLsb' 8 3 = q.sAvail := by
  refine BitVec.eq_of_getLsbD_eq fun i hi => ?_
  simp only [Request.lo, BitVec.getLsbD_extractLsb', BitVec.getLsbD_cast, BitVec.getLsbD_append]
  rw [if_neg (by omega), if_neg (by omega), if_pos (by omega), show 8 + i - 4 - 4 = i by omega]
  simp [hi]

/-- Bit i of the reserved field, as REQ_LO carries it (R80). -/
theorem rsvOfLo_getLsbD (lo : Word) (i : Nat) (hi : i < 17) :
    (rsvOfLo lo).getLsbD i =
      if i < 4 then lo.getLsbD (4 + i) else if i < 9 then lo.getLsbD (7 + i) else lo.getLsbD (47 + i) := by
  simp only [rsvOfLo, BitVec.getLsbD_cast, BitVec.getLsbD_append, BitVec.getLsbD_extractLsb']
  by_cases h1 : i < 4
  · simp [h1]
  · by_cases h2 : i < 9
    · rw [if_neg h1, if_pos (by omega), if_neg h1, if_pos h2, show 11 + (i - 4) = 7 + i by omega]
      simp [show i - 4 < 5 by omega]
    · rw [if_neg h1, if_neg (by omega), if_neg h1, if_neg h2, show 56 + (i - 4 - 5) = 47 + i by omega]
      simp [show i - 4 - 5 < 8 by omega]

theorem Request.lo_rsv (q : Request) : rsvOfLo q.lo = q.rsv := by
  refine BitVec.eq_of_getLsbD_eq fun i hi => ?_
  rw [rsvOfLo_getLsbD _ i hi]
  simp only [Request.lo, BitVec.getLsbD_cast, BitVec.getLsbD_append, BitVec.getLsbD_extractLsb']
  by_cases h1 : i < 4
  · rw [if_pos h1, if_neg (by omega), if_pos (by omega), show 4 + i - 4 = i by omega]
    simp [h1]
  · by_cases h2 : i < 9
    · rw [if_neg h1, if_pos h2, if_neg (by omega), if_neg (by omega), if_neg (by omega), if_pos (by omega),
        show 4 + (7 + i - 4 - 4 - 3) = i by omega]
      simp [show 7 + i - 4 - 4 - 3 < 5 by omega]
    · rw [if_neg h1, if_neg h2, if_neg (by omega), if_neg (by omega), if_neg (by omega), if_neg (by omega),
        if_neg (by omega), show 9 + (47 + i - 4 - 4 - 3 - 5 - 40) = i by omega]
      simp [show 47 + i - 4 - 4 - 3 - 5 - 40 < 8 by omega]

/-- Bit j of the 40 bits of `s_in` is bit j mod 8 of lane j / 8. -/
theorem Lanes.bits_getLsbD (l : Lanes) (i j : Nat) (hi : i < 5) (hj : j < 8) :
    (Lanes.bits l).getLsbD (8 * i + j) = l[i].getLsbD j := by
  simp only [Lanes.bits, BitVec.getLsbD_cast, BitVec.getLsbD_append]
  interval_cases i
  · rw [if_pos (by omega)]; simp
  · rw [if_neg (by omega), if_pos (by omega)]; congr 1; omega
  · rw [if_neg (by omega), if_neg (by omega), if_pos (by omega)]; congr 1; omega
  · rw [if_neg (by omega), if_neg (by omega), if_neg (by omega), if_pos (by omega)]; congr 1; omega
  · rw [if_neg (by omega), if_neg (by omega), if_neg (by omega), if_neg (by omega)]; congr 1; omega

theorem Request.lo_lane (q : Request) (i : Nat) (hi : i < 5) : laneOfLo q.lo i = q.sIn[i] := by
  refine BitVec.eq_of_getLsbD_eq fun j hj => ?_
  simp only [laneOfLo, Request.lo, BitVec.getLsbD_extractLsb', BitVec.getLsbD_cast, BitVec.getLsbD_append]
  rw [if_neg (by omega), if_neg (by omega), if_neg (by omega), if_neg (by omega), if_pos (by omega),
    show 16 + 8 * i + j - 4 - 4 - 3 - 5 = 8 * i + j by omega, Lanes.bits_getLsbD _ _ _ hi hj]
  simp [hj]

/-- A vector of five is its five entries. -/
theorem Lanes.eq_entries (l : Lanes) : #v[l[0], l[1], l[2], l[3], l[4]] = l := by
  ext i hi
  interval_cases i <;> rfl

/-- The fields of a request survive its packing. -/
theorem Request.unpack_lo (q : Request) : Request.unpack q.hi q.lo = q := by
  simp only [Request.unpack, Request.lo_op, Request.lo_sAvail, Request.lo_rsv, Request.lo_lane q 0 (by omega),
    Request.lo_lane q 1 (by omega), Request.lo_lane q 2 (by omega), Request.lo_lane q 3 (by omega),
    Request.lo_lane q 4 (by omega), Request.hi, Lanes.eq_entries]

theorem Request.illegal_iff (q : Request) : q.illegal = true ↔ q.op = 0xF#4 ∨ q.rsv ≠ 0#17 := by
  simp [Request.illegal]

/-- An illegal request decodes to the reserved row (R83). -/
theorem decode_of_illegal (q : Request) (h : q.illegal = true) : decode q = .reserved q.op q.rsv := by
  rw [decode, if_pos h]

/-- A legal request decodes to the operation of its own op (R82). -/
theorem decode_of_legal (q : Request) (h : q.illegal = false) :
    (∀ op rsv, decode q ≠ .reserved op rsv) ∧ (decode q).op = q.op := by
  have hne : q.op ≠ 0xF#4 := by intro h'; simp [Request.illegal, h'] at h
  obtain ⟨op, a, n, l, rsv⟩ := q
  simp only at hne
  unfold decode
  rw [if_neg (by simp [h])]
  simp only
  have hlt := op.isLt
  generalize hk : op.toNat = k at hlt
  have hop : op = BitVec.ofNat 4 k := by simp [← hk]
  subst hop
  interval_cases k <;> first | exact absurd rfl hne | exact ⟨by simp, rfl⟩

end Sys2Proof
end

