-- ==== Sys2Proof/Laws/PerInstr.lean ====
section
/-! SUPPORT. The family RoundTrip: one lemma per constructor of Instr. -/

namespace Sys2Proof.Laws.RoundTrip

/-- The decoder reads a well-formed instruction back from its packed request. -/
def Statement (i : Instr) : Prop := i.wf = true → decodeBits (encodeBits i) = i

/-- The decoder on packed bits is the decoder on the request. -/
theorem decodeBits_bits (q : Request) : decodeBits q.bits = decode q := by
  rw [decodeBits, Request.ofBits, Request.hi_bits, Request.lo_bits]
  exact congrArg decode (Request.unpack_lo q)

theorem encDouble (a : Word) : Statement (.encDouble a) := fun _ => decodeBits_bits _
theorem encNull : Statement .encNull := fun _ => decodeBits_bits _
theorem encUndef : Statement .encUndef := fun _ => decodeBits_bits _
theorem encEmpty : Statement .encEmpty := fun _ => decodeBits_bits _
theorem encBool (a : Word) : Statement (.encBool a) := fun _ => decodeBits_bits _
theorem encInt (a : Word) : Statement (.encInt a) := fun _ => decodeBits_bits _
theorem encStr (n : BitVec 3) (l : Lanes) : Statement (.encStr n l) := fun _ => decodeBits_bits _
theorem encCustom (a : Word) : Statement (.encCustom a) := fun _ => decodeBits_bits _
theorem encRaw (a : Word) : Statement (.encRaw a) := fun _ => decodeBits_bits _
theorem classify (a : Word) : Statement (.classify a) := fun _ => decodeBits_bits _
theorem asBool (a : Word) : Statement (.asBool a) := fun _ => decodeBits_bits _
theorem asInt (a : Word) : Statement (.asInt a) := fun _ => decodeBits_bits _
theorem asCustom (a : Word) : Statement (.asCustom a) := fun _ => decodeBits_bits _
theorem asStr (a : Word) : Statement (.asStr a) := fun _ => decodeBits_bits _
theorem asRaw (a : Word) : Statement (.asRaw a) := fun _ => decodeBits_bits _
theorem reserved (op : BitVec 4) (rsv : BitVec 17) : Statement (.reserved op rsv) := by
  intro h
  refine (decodeBits_bits _).trans ?_
  unfold decode
  rw [if_pos (show (encode (.reserved op rsv)).illegal = true from h)]
  rfl

end Sys2Proof.Laws.RoundTrip
end

