-- ==== Sys2Proof/Laws/State.lean ====
section
/-! SUPPORT. One lemma per field per update of the state and of an agent, each true by rfl. -/

namespace Sys2Proof.Machine

@[simp] theorem State.setAgent_resp (s : State) (a : Agent) : (s.setAgent a).resp = s.resp := rfl
@[simp] theorem State.setAgent_contractViolated (s : State) (a : Agent) :
    (s.setAgent a).contractViolated = s.contractViolated := rfl
@[simp] theorem State.setAgent_hostEndian (s : State) (a : Agent) : (s.setAgent a).hostEndian = s.hostEndian := rfl
@[simp] theorem State.setAgent_mem (s : State) (a : Agent) : (s.setAgent a).mem = s.mem := rfl
@[simp] theorem State.setAgent_agents (s : State) (a : Agent) :
    (s.setAgent a).agents = s.agents.set s.turn a := rfl
@[simp] theorem State.setAgent_turn (s : State) (a : Agent) : (s.setAgent a).turn = s.turn := rfl
@[simp] theorem State.setAgent_draws (s : State) (a : Agent) : (s.setAgent a).draws = s.draws := rfl

@[simp] theorem Agent.setVar_pc (a : Agent) (d : VarId) (w : Word) : (a.setVar d w).pc = a.pc := rfl
@[simp] theorem Agent.setVar_st (a : Agent) (d : VarId) (w : Word) : (a.setVar d w).st = a.st := rfl
@[simp] theorem Agent.setVar_prog (a : Agent) (d : VarId) (w : Word) : (a.setVar d w).prog = a.prog := rfl
@[simp] theorem Agent.setVar_phase (a : Agent) (d : VarId) (w : Word) : (a.setVar d w).phase = a.phase := rfl
@[simp] theorem Agent.advance_vars (a : Agent) : a.advance.vars = a.vars := rfl
@[simp] theorem Agent.advance_pc (a : Agent) : a.advance.pc = a.pc + 1 := rfl
@[simp] theorem Agent.advance_st (a : Agent) : a.advance.st = a.st := rfl
@[simp] theorem Agent.advance_prog (a : Agent) : a.advance.prog = a.prog := rfl
@[simp] theorem Agent.advance_phase (a : Agent) : a.advance.phase = .ready := rfl

theorem Agent.getVar_setVar (a : Agent) (d v : VarId) (w : Word) :
    (a.setVar d w).getVar v = if v = d then w else a.getVar v := by
  simp only [Agent.getVar, Agent.setVar, Fin.getElem_fin, Vector.getElem_set, Fin.ext_iff]
  simp [eq_comm]

@[simp] theorem State.pass_resp (s : State) : s.pass.resp = s.resp := by unfold State.pass; split <;> rfl
@[simp] theorem State.pass_contractViolated (s : State) : s.pass.contractViolated = s.contractViolated := by
  unfold State.pass; split <;> rfl
@[simp] theorem State.pass_hostEndian (s : State) : s.pass.hostEndian = s.hostEndian := by
  unfold State.pass; split <;> rfl
@[simp] theorem State.pass_mem (s : State) : s.pass.mem = s.mem := by unfold State.pass; split <;> rfl
@[simp] theorem State.pass_agents (s : State) : s.pass.agents = s.agents := by unfold State.pass; split <;> rfl

/-- The next turn is an agent's. -/
theorem State.pass_turn_lt (s : State) (h : s.agents ≠ []) : s.pass.turn < s.agents.length := by
  have hpos : 0 < s.agents.length := List.length_pos_iff.mpr h
  unfold State.pass
  split
  · exact hpos
  · exact Nat.mod_lt _ hpos

/-- With one agent the turn stays with it and nothing is drawn. -/
theorem State.pass_single (s : State) (h : s.agents.length ≤ 1) : s.pass = { s with turn := 0 } := by
  unfold State.pass; rw [if_pos h]

/-- Writing the agent whose turn it is, then reading an agent by its index. -/
theorem State.setAgent_getElem? (s : State) (a : Agent) (h : s.turn < s.agents.length) (k : Nat) :
    (s.setAgent a).agents[k]? = if k = s.turn then some a else s.agents[k]? := by
  simp only [State.setAgent_agents, List.getElem?_set]
  by_cases hk : s.turn = k
  · subst hk; simp [h]
  · rw [if_neg hk, if_neg fun h' => hk h'.symm]

end Sys2Proof.Machine
end

