-- ==== Sys2Proof/Laws/Step.lean ====
section
/-! SUPPORT. What one action of one agent can do, said once for each kind of action. -/

namespace Sys2Proof.Machine

theorem State.current_eq_some (s : State) (a : Agent) (h : s.current = some a) :
    ∃ hlt : s.turn < s.agents.length, s.agents[s.turn] = a := List.getElem?_eq_some_iff.mp h

/-- What an action of the host's side (a command, a byte of the adapter) by the agent `a` does: it writes that agent,
never its program, and some bytes of memory, and may draw; it touches neither the response, nor the mark, nor
HOST_ENDIAN, nor the turn. An adapter in order stays in order. -/
structure HostAction (a : Agent) (s t : State) : Prop where
  resp : t.resp = s.resp
  contractViolated : t.contractViolated = s.contractViolated
  hostEndian : t.hostEndian = s.hostEndian
  turn : t.turn = s.turn
  agents : t.agents = s.agents ∨
    ∃ b : Agent, b.prog = a.prog ∧ (a.phase.wf = true → b.phase.wf = true) ∧ t.agents = s.agents.set s.turn b
  mem : Memory.wf s.mem → Memory.wf t.mem

theorem HostAction.refl (a : Agent) (s : State) : HostAction a s s := ⟨rfl, rfl, rfl, rfl, .inl rfl, id⟩

theorem HostAction.setAgent (a : Agent) (s : State) (b : Agent) (hp : b.prog = a.prog)
    (h : a.phase.wf = true → b.phase.wf = true) : HostAction a s (s.setAgent b) :=
  ⟨rfl, rfl, rfl, rfl, .inr ⟨b, hp, h, rfl⟩, id⟩

theorem hostAction_presentString (got : List Byte) (d : VarId) (a : Agent) (s : State) :
    HostAction a s (presentString got d a s) :=
  ⟨rfl, rfl, rfl, rfl, .inr ⟨{ a with phase := .presenting (stringRequest got s.draws) (.toVar d) }, rfl,
    fun _ => rfl, rfl⟩, id⟩

theorem hostAction_loadByte (addr : Word) (got : List Byte) (d : VarId) (a : Agent) (s : State)
    (ha : a.phase = .loading addr got d) : HostAction a s (loadByte addr got d a s) := by
  unfold loadByte
  split
  · exact hostAction_presentString _ _ _ _
  · split
    · exact hostAction_presentString _ _ _ _
    · rename_i hb hl
      refine HostAction.setAgent a s _ rfl fun h => ?_
      rw [ha] at h
      simp only [Phase.wf, Bool.and_eq_true, decide_eq_true_eq, List.length_append, List.length_singleton,
        List.all_append, List.all_cons, List.all_nil] at h ⊢
      exact ⟨by omega, h.2, by simpa using hb⟩

theorem hostAction_storeByte (addr : Word) (lanes : List Byte) (a : Agent) (s : State)
    (ha : a.phase = .storing addr lanes) : HostAction a s (storeByte addr lanes a s) := by
  unfold storeByte
  split
  · exact HostAction.setAgent a s _ rfl fun _ => rfl
  · exact ⟨rfl, rfl, rfl, rfl, .inr ⟨a.advance, rfl, fun _ => rfl, rfl⟩,
      fun hm => Memory.wf_write _ hm _ (Memory.cellAt_lt _ _) _⟩
  · rename_i b rest hne
    refine ⟨rfl, rfl, rfl, rfl, .inr ⟨{ a with phase := .storing (addr + 1#64) rest }, rfl, fun h => ?_, rfl⟩,
      fun hm => Memory.wf_write _ hm _ (Memory.cellAt_lt _ _) _⟩
    cases rest with
    | nil => exact absurd rfl hne
    | cons c rest =>
      rw [ha] at h
      simp only [Phase.wf, List.length_cons, Bool.and_eq_true, decide_eq_true_eq] at h ⊢
      omega

theorem branch_phase (c : Bool) (t : Nat) (a : Agent) (h : a.phase = .ready) : (branch c t a).phase = .ready := by
  unfold branch; split
  · exact h
  · rfl

theorem branch_prog (c : Bool) (t : Nat) (a : Agent) : (branch c t a).prog = a.prog := by
  unfold branch; split <;> rfl

theorem hostAction_runReady (a : Agent) (s : State) (h : a.phase = .ready) : HostAction a s (runReady a s) := by
  unfold runReady
  split
  · exact HostAction.refl a s
  · rename_i c _
    cases c
    case st64 v addr =>
      exact ⟨rfl, rfl, rfl, rfl, .inr ⟨a.advance, rfl, fun _ => rfl, rfl⟩, fun hm => Memory.wf_writeBytes _ _ hm _⟩
    case beq x y t => exact HostAction.setAgent a s _ (branch_prog _ _ _) fun _ => by rw [branch_phase _ _ _ h]; rfl
    case bne x y t => exact HostAction.setAgent a s _ (branch_prog _ _ _) fun _ => by rw [branch_phase _ _ _ h]; rfl
    case jmp t => exact HostAction.setAgent a s _ rfl id
    case halt => exact HostAction.refl a s
    all_goals exact HostAction.setAgent a s _ rfl fun _ => rfl

/-- The agent that a response was delivered to. -/
theorem takeResponse_phase_wf (p : Response) (a : Agent) (r : Reply) : (takeResponse p a r).phase.wf = true := by
  cases r <;> rfl

theorem takeResponse_prog (p : Response) (a : Agent) (r : Reply) : (takeResponse p a r).prog = a.prog := by
  cases r <;> rfl

/-- A served request: the response of exec, then its delivery to the agent that presented it. -/
theorem serve_next (q : Request) (reply : Reply) (a : Agent) (s : State) :
    ∃ (p : Response) (cv : Bool) (n : Nat), p.wf = true ∧ (s.contractViolated = true → cv = true) ∧
      ((decode q).guardHolds = true → cv = s.contractViolated) ∧
      exec (decode q) s = .next { s with resp := some p, contractViolated := cv, draws := n } ∧
      serve q reply a s =
        .next (State.pass { s with resp := some p, contractViolated := cv, draws := n,
                                   agents := s.agents.set s.turn (takeResponse p a reply) }) := by
  obtain ⟨p, cv, n, hp, hcv, hg, he⟩ := exec_next (decode q) s
  exact ⟨p, cv, n, hp, hcv, hg, he, by simp only [serve, he]; rfl⟩

/-- All that a step can do: pass the turn when no agent has it; one action of the host's side; or serve the request
that the acting agent presents. -/
inductive StepKind (s t : State) : Prop
  | idle (hc : s.current = none) (ht : t = s.pass)
  | host (a : Agent) (u : State) (hc : s.current = some a) (hq : ∀ q r, a.phase ≠ .presenting q r)
      (hu : HostAction a s u) (ht : t = u.pass)
  | served (a : Agent) (q : Request) (reply : Reply) (p : Response) (cv : Bool) (n : Nat)
      (hc : s.current = some a) (hq : a.phase = .presenting q reply) (hp : p.wf = true)
      (hcv : s.contractViolated = true → cv = true)
      (hg : (decode q).guardHolds = true → cv = s.contractViolated)
      (he : exec (decode q) s = .next { s with resp := some p, contractViolated := cv, draws := n })
      (ht : t = State.pass { s with resp := some p, contractViolated := cv, draws := n,
                                    agents := s.agents.set s.turn (takeResponse p a reply) })

theorem step_kind (s t : State) (h : step s = .next t) : StepKind s t := by
  unfold step at h
  split at h
  · rename_i hc; injection h with h; exact .idle hc h.symm
  · rename_i a hc
    unfold act at h
    split at h <;> rename_i hp
    · injection h with h; exact .host a _ hc (by simp [hp]) (hostAction_runReady a s hp) h.symm
    · injection h with h; exact .host a _ hc (by simp [hp]) (hostAction_loadByte _ _ _ a s hp) h.symm
    · obtain ⟨p, cv, n, h1, h2, h3, h4, h5⟩ := serve_next _ _ a s
      rw [h5] at h; injection h with h
      exact .served a _ _ p cv n hc hp h1 h2 h3 h4 h.symm
    · injection h with h; exact .host a _ hc (by simp [hp]) (hostAction_storeByte _ _ a s hp) h.symm

end Sys2Proof.Machine
end

