-- ==== Sys2Proof/Laws/Strings.lean ====
section
/-! SUPPORT. PACK5, UNPACK5 and the memory image, byte by byte. -/

namespace Sys2Proof.Machine

/-- Byte i of the placed bytes is byte i of the list, and zero above it (R52, R53). -/
theorem placeBytes_byte (bytes : List Byte) (i : Nat) (hi : i < 6) :
    (placeBytes bytes).extractLsb' (8 * i) 8 = bytes.getD i 0#8 := by
  induction bytes generalizing i with
  | nil => ext j hj; simp [placeBytes]
  | cons b rest ih =>
    ext j hj
    cases i with
    | zero =>
      have h1 : j < 48 := by omega
      simp [placeBytes, BitVec.getElem_extractLsb', hj, h1, BitVec.getLsbD_eq_getElem]
    | succ k =>
      have h := congrArg (fun v => v.getLsbD j) (ih k (by omega))
      have h1 : 8 * (k + 1) + j < 48 := by omega
      have h2 : ¬ 8 * (k + 1) + j < 8 := by omega
      have h3 : 8 * (k + 1) + j - 8 = 8 * k + j := by omega
      simp only [BitVec.getLsbD_extractLsb', hj, decide_true, Bool.true_and] at h
      simp only [placeBytes, BitVec.getElem_extractLsb', BitVec.getLsbD_or, BitVec.getLsbD_setWidth,
        BitVec.getLsbD_shiftLeft, h1, h2, h3, decide_true, decide_false, Bool.true_and, Bool.not_false,
        BitVec.getLsbD_of_ge b _ (show 8 ≤ 8 * (k + 1) + j by omega), Bool.false_or, h]
      simp [BitVec.getLsbD_eq_getElem hj]

/-- Two payloads with the same six bytes are equal. -/
theorem payload_ext (p q : Payload) (h : ∀ i < 6, p.extractLsb' (8 * i) 8 = q.extractLsb' (8 * i) 8) : p = q := by
  ext j hj
  have := congrArg (fun v => v.getLsbD (j % 8)) (h (j / 8) (by omega))
  simp only [BitVec.getLsbD_extractLsb', Nat.mod_lt j (show 0 < 8 by omega), decide_true, Bool.true_and,
    Nat.div_add_mod] at this
  simpa [BitVec.getLsbD_eq_getElem hj] using this

/-- Two words with the same eight bytes are equal. -/
theorem word_ext (v w : Word) (h : ∀ i < 8, byteOf v i = byteOf w i) : v = w := by
  ext j hj
  have := congrArg (fun v => v.getLsbD (j % 8)) (h (j / 8) (by omega))
  simp only [byteOf, BitVec.getLsbD_extractLsb', Nat.mod_lt j (show 0 < 8 by omega), decide_true, Bool.true_and,
    Nat.div_add_mod] at this
  simpa [BitVec.getLsbD_eq_getElem hj] using this

theorem laneCount_le (n : BitVec 3) : laneCount n ≤ 5 := Nat.min_le_right _ _

theorem textOf_length_le (l : Lanes) (n : BitVec 3) : (textOf l n).length ≤ laneCount n := by
  have := (List.takeWhile_sublist (p := (· != 0#8)) (l := l.toList.take (laneCount n))).length_le
  exact this.trans (List.length_take_le _ _)

/-- Byte j of the word read from a little-endian image is the byte at offset j (R55). -/
theorem byteOf_wordOfImage_le (f : Nat → Byte) (j : Nat) (hj : j < 8) : byteOf (wordOfImage .le f) j = f j := by
  refine BitVec.eq_of_getLsbD_eq fun k hk => ?_
  simp only [byteOf, wordOfImage, BitVec.getLsbD_extractLsb', BitVec.getLsbD_cast, BitVec.getLsbD_append, hk,
    decide_true, Bool.true_and]
  interval_cases j
  all_goals
    repeat (first | rw [if_pos (by omega)] | rw [if_neg (by omega)])
    congr 1
    omega

/-- Byte j of the word read from a big-endian image is the byte at offset 7 - j (R55). -/
theorem byteOf_wordOfImage_be (f : Nat → Byte) (j : Nat) (hj : j < 8) :
    byteOf (wordOfImage .be f) j = f (7 - j) := by
  refine BitVec.eq_of_getLsbD_eq fun k hk => ?_
  simp only [byteOf, wordOfImage, BitVec.getLsbD_extractLsb', BitVec.getLsbD_cast, BitVec.getLsbD_append, hk,
    decide_true, Bool.true_and]
  interval_cases j
  all_goals
    repeat (first | rw [if_pos (by omega)] | rw [if_neg (by omega)])
    congr 1
    omega

end Sys2Proof.Machine
end

