-- ==== Sys2Proof/Tests/Slice0.lean ====
section
/-! SUPPORT. Tests. Expected results are the spec's own: 95_test_vectors, by the vector named in each comment. Then a
witness for the hypotheses of each statement. -/

namespace Sys2Proof.Tests

open Sys2Proof Sys2Proof.Machine

/-! ## Helpers -/

/-- The response of an outcome. -/
def answer : Host.Outcome State Fault Refusal → Option Response
  | .next t => t.resp
  | .fault _ => none
  | .refused _ => none

/-- The next state of an outcome, if it is one. -/
def after : Host.Outcome State Fault Refusal → Option State
  | .next t => some t
  | .fault _ => none
  | .refused _ => none

/-- The response to one packed request, REQ_HI and REQ_LO, after reset. -/
def ask (hi lo : Word) : Option Response := answer (exec (decode (Request.unpack hi lo)) State.reset)

/-- The response to one op with an operand word. -/
def askOp (op : BitVec 4) (a : Word) : Option Response := answer (exec (decode (Request.word op a)) State.reset)

/-- An OK response with no lanes. -/
def ok (r : Word) : Option Response := some ⟨r, 0#48, .ok⟩

/-- One agent with a program, in a phase. -/
def agentWith (prog : List Command) (phase : Phase) : Agent := { Agent.init with prog := prog, phase := phase }

/-- A state with one agent, and a memory. -/
def stateWith (a : Agent) (m : Memory) (e : Endian) : State :=
  { State.reset with agents := [a], mem := m, hostEndian := e }

/-! ## WellFormed, with an ill-formed term for its check -/

theorem test_wf_refuses_legal_reserved : (Instr.reserved 0x3#4 0#17).wf = false := by decide
theorem test_wf_accepts_op_f : (Instr.reserved 0xF#4 0#17).wf = true := by decide
theorem test_wf_accepts_reserved_bit : (Instr.reserved 0x1#4 0x10000#17).wf = true := by decide

/-! ## Decoding: a word written out from R80 and R82 for every constructor -/

theorem test_decode_encDouble : decode (Request.unpack 0x3FF0000000000000#64 0x0#64) =
    .encDouble 0x3FF0000000000000#64 := by decide
theorem test_decode_encNull : decode (Request.unpack 0xDEADBEEF00000000#64 0x1#64) = .encNull := by decide
theorem test_decode_encUndef : decode (Request.unpack 0#64 0x2#64) = .encUndef := by decide
theorem test_decode_encEmpty : decode (Request.unpack 0x1234#64 0x3#64) = .encEmpty := by decide
theorem test_decode_encBool : decode (Request.unpack 2#64 0x4#64) = .encBool 2#64 := by decide
theorem test_decode_encInt : decode (Request.unpack 0x075BCD15#64 0x5#64) = .encInt 0x075BCD15#64 := by decide
-- REQ_LO bits 55:48 hold lane 4, bits 23:16 lane 0, bits 10:8 s_avail
theorem test_decode_encStr : decode (Request.unpack 0#64 0x0045444342410506#64) =
    .encStr 5#3 #v[0x41#8, 0x42#8, 0x43#8, 0x44#8, 0x45#8] := by decide
theorem test_decode_encCustom : decode (Request.unpack 0x123456789ABC#64 0x7#64) =
    .encCustom 0x123456789ABC#64 := by decide
theorem test_decode_encRaw : decode (Request.unpack 0xFFFFFFFFFFFFFFFF#64 0x8#64) =
    .encRaw 0xFFFFFFFFFFFFFFFF#64 := by decide
theorem test_decode_classify : decode (Request.unpack 0xFFFC0000075BCD15#64 0x9#64) =
    .classify 0xFFFC0000075BCD15#64 := by decide
theorem test_decode_asBool : decode (Request.unpack 0xFFFB000000000002#64 0xA#64) =
    .asBool 0xFFFB000000000002#64 := by decide
theorem test_decode_asInt : decode (Request.unpack 0xFFFC0000075BCD15#64 0xB#64) =
    .asInt 0xFFFC0000075BCD15#64 := by decide
theorem test_decode_asCustom : decode (Request.unpack 0xFFFE123456789ABC#64 0xC#64) =
    .asCustom 0xFFFE123456789ABC#64 := by decide
theorem test_decode_asStr : decode (Request.unpack 0xFFFD004544434241#64 0xD#64) =
    .asStr 0xFFFD004544434241#64 := by decide
theorem test_decode_asRaw : decode (Request.unpack 0x8000000000000000#64 0xE#64) =
    .asRaw 0x8000000000000000#64 := by decide
theorem test_decode_reserved : decode (Request.unpack 0#64 0xF#64) = .reserved 0xF#4 0#17 := by decide
-- L2.10: REQ_LO bit 11 set with op 1, and bit 7 set with op 0xB
theorem test_decode_rsv_bit_11 : decode (Request.unpack 0#64 0x801#64) = .reserved 0x1#4 0x10#17 := by decide
theorem test_decode_rsv_bit_7 : decode (Request.unpack 0xFFFC000000000001#64 0x8B#64) =
    .reserved 0xB#4 0x8#17 := by decide
theorem test_decodeTableWord : decodeTableWord 128 0x075BCD150000000000000005 = some (.encInt 0x075BCD15#64) := by
  decide
theorem test_encode_str : (encode (.encStr 5#3 #v[0x41#8, 0x42#8, 0x43#8, 0x44#8, 0x45#8])).lo =
    0x0045444342410506#64 := by decide

/-! ## The operations -/

-- L2.1: the boundary passes, the next word collapses
theorem test_encDouble_boundary : askOp 0x0#4 0xFFF8FFFFFFFFFFFF#64 = ok 0xFFF8FFFFFFFFFFFF#64 := by decide
theorem test_encDouble_collapse : askOp 0x0#4 0xFFF9000000000000#64 = ok 0x7FF8000000000000#64 := by decide
-- L2.2
theorem test_encNull : askOp 0x1#4 0xDEADBEEF00000000#64 = ok 0xFFF9000000000000#64 := by decide
theorem test_encUndef : askOp 0x2#4 0#64 = ok 0xFFFA000000000000#64 := by decide
theorem test_encEmpty : askOp 0x3#4 0x1234#64 = ok 0xFFFFFFFFFFFFFFFF#64 := by decide
-- L2.3
theorem test_encBool_bit_63 : askOp 0x4#4 0x8000000000000000#64 = ok 0xFFFB000000000001#64 := by decide
theorem test_encBool_zero : askOp 0x4#4 0#64 = ok 0xFFFB000000000000#64 := by decide
-- L2.4: 2^48 + 5, and -1
theorem test_encInt_truncates : askOp 0x5#4 0x0001000000000005#64 = ok 0xFFFC000000000005#64 := by decide
theorem test_encInt_minus_one : askOp 0x5#4 0xFFFFFFFFFFFFFFFF#64 = ok 0xFFFCFFFFFFFFFFFF#64 := by decide
theorem test_encCustom_truncates : askOp 0x7#4 0xDEAD000000000001#64 = ok 0xFFFE000000000001#64 := by decide
-- L2.5: a zero lane ends the string; s_avail 7 reads as 5
theorem test_encStr_zero_lane : ask 0#64 0x0045440042410506#64 = ok 0xFFFD000000004241#64 := by decide
theorem test_encStr_avail_7 : ask 0#64 0x0045444342410706#64 = ok 0xFFFD004544434241#64 := by decide
-- L2.6
theorem test_encRaw : askOp 0x8#4 0xFFFDAA0000000041#64 = ok 0xFFFDAA0000000041#64 := by decide
-- L1-3, L2.7
theorem test_classify_boundary : askOp 0x9#4 0xFFF8FFFFFFFFFFFF#64 = ok 0#64 := by decide
theorem test_classify_empty : askOp 0x9#4 0xFFFF000000000000#64 = ok 7#64 := by decide
-- L2.8
theorem test_asBool_bit_47 : askOp 0xA#4 0xFFFB800000000000#64 = ok 1#64 := by decide
theorem test_asBool_false : askOp 0xA#4 0xFFFB000000000000#64 = ok 0#64 := by decide
theorem test_asInt_unsigned : askOp 0xB#4 0xFFFCFFFFFFFFFFFF#64 = ok 0x0000FFFFFFFFFFFF#64 := by decide
theorem test_asCustom : askOp 0xC#4 0xFFFE123456789ABC#64 = ok 0x0000123456789ABC#64 := by decide
-- L2.8: bytes after a zero are copied, byte 5 is ignored
theorem test_asStr_after_zero : askOp 0xD#4 0xFFFD000041004200#64 = some ⟨0#64, 0x000041004200#48, .ok⟩ := by decide
theorem test_asStr_byte_5 : askOp 0xD#4 0xFFFDAA0000000041#64 = some ⟨0#64, 0x000000000041#48, .ok⟩ := by decide
theorem test_asRaw : askOp 0xE#4 0xFFF9000000000000#64 = ok 0xFFF9000000000000#64 := by decide
-- L2.9: the mark is set and the status is OK; the two values are draws
theorem test_asInt_wrong_variant :
    (after (exec (.asInt 0xFFFD004544434241#64) State.reset)).map (fun t => (t.contractViolated, t.draws)) =
      some (true, 1) := by decide
theorem test_asRaw_no_mark :
    (after (exec (.asRaw 0xFFFD004544434241#64) State.reset)).map (·.contractViolated) = some false := by decide
-- L2.10
theorem test_illegal_op_f : ask 0#64 0xF#64 = some ⟨0#64, 0#48, .illegalRequest⟩ := by decide
theorem test_illegal_packed : (ask 0#64 0x0100000000000001#64).map (fun p => (p.hi, p.lo)) =
    some (0#64, 0x0001000000000000#64) := by decide

/-! ## Relations and images -/

-- L2.11
theorem test_taggedEq_zeros : taggedEq 0#64 0x8000000000000000#64 = true := by decide
theorem test_taggedEq_nan : taggedEq 0x7FF8000000000000#64 0x7FF8000000000000#64 = false := by decide
theorem test_taggedEq_bools : taggedEq 0xFFFB000000000001#64 0xFFFB000000000002#64 = false := by decide
-- L2.12
theorem test_image_le : image .le 0xFFFC0000075BCD15#64 =
    [0x15#8, 0xCD#8, 0x5B#8, 0x07#8, 0x00#8, 0x00#8, 0xFC#8, 0xFF#8] := by decide
theorem test_image_be : image .be 0x3FF0000000000000#64 =
    [0x3F#8, 0xF0#8, 0x00#8, 0x00#8, 0x00#8, 0x00#8, 0x00#8, 0x00#8] := by decide

/-! ## The assembler: L2.5, R87, R88 -/

theorem test_asm_text : Asm.parse "enc.str \"ABCDEFG\"".toList =
    some (.request (.encStr 5#3 #v[0x41#8, 0x42#8, 0x43#8, 0x44#8, 0x45#8])) := by decide
theorem test_asm_nul : Asm.parse "enc.str \"AB\\0DE\"".toList =
    some (.request (.encStr 2#3 #v[0x41#8, 0x42#8, 0#8, 0#8, 0#8])) := by decide
theorem test_asm_negative : Asm.parse "enc.int -1".toList =
    some (.request (.encInt 0xFFFFFFFFFFFFFFFF#64)) := by decide
-- L2.1 and K6: -1.5 and minus infinity
theorem test_asm_f64 : Asm.parse "enc.double f64(-1.5)".toList =
    some (.request (.encDouble 0xBFF8000000000000#64)) := by decide
theorem test_asm_f64_inf : Asm.parse "enc.double f64(-inf)".toList =
    some (.request (.encDouble 0xFFF0000000000000#64)) := by decide
theorem test_asm_refuses : Asm.parse "enc.nil 5".toList = none := by decide

/-! ## The step -/

/-- `req 0 : 0x5 -> v3` at pc 0. -/
def s_req : State := stateWith (agentWith [.req (.var 1) 0x5#64 3] .ready) [] .le

theorem test_step_presents : (after (step s_req)).map (fun t => t.agents.map (·.phase)) =
    some [.presenting (Request.unpack 0#64 0x5#64) (.toVar 3)] := by decide

-- L1-7 through the step: the word goes to v0, and on to the next command
theorem test_step_serves :
    (after (step (State.reset.withFetchWord 128 0x00000000075BCD150000000000000005))).map
      (fun t => t.agents.map (fun a => (a.getVar 0, a.pc, a.st))) =
        some [(0xFFFC0000075BCD15#64, 1, .ok)] := by decide

-- P5: an illegal request reaches the harness as status 0b01 and r = 0
theorem test_step_illegal :
    (after (step (State.reset.withFetchWord 64 0x11))).map (fun t => t.agents.map (fun a => (a.getVar 0, a.st))) =
        some [(0#64, .illegalRequest)] := by decide

/-- The adapter about to read string byte 2 of "Hi". -/
def s_load : State :=
  stateWith (agentWith [] (.loading 0x100#64 [0x48#8, 0x69#8] 0)) [(0x100, 0x48#8), (0x101, 0x69#8)] .le

theorem test_load_ends_at_zero : ((after (step s_load)).bind (fun t => t.agents.head?)).map
    (fun a => match a.phase with | .presenting q _ => (decode q).wf && q.sAvail == 2#3 | _ => false) =
      some true := by decide

/-- The adapter about to write the last two lanes of "Hello" and its terminator over 0xFF. -/
def s_store : State :=
  stateWith (agentWith [] (.storing 0xFFFFFFFFFFFFFFFF#64 [0x6F#8, 0x00#8])) [(0, 0xFF#8)] .le

theorem test_store_one_byte : (after (step s_store)).map (fun t => (t.mem, t.agents.map (·.phase))) =
    some ([(0, 0xFF#8), (0xFFFFFFFFFFFFFFFF, 0x6F#8)], [.storing 0#64 [0x00#8]]) := by decide

/-- `st64 v0, 0x300` of P2 on either host. -/
def s_st64 (e : Endian) : State :=
  stateWith ((agentWith [.st64 0 0x300#64] .ready).setVar 0 0xFFFD006F6C6C6548#64) [] e

theorem test_st64_le : (after (step (s_st64 .le))).map (·.mem) = some [(0x300, 0x48#8), (0x301, 0x65#8),
    (0x302, 0x6C#8), (0x303, 0x6C#8), (0x304, 0x6F#8), (0x306, 0xFD#8), (0x307, 0xFF#8)] := by decide
theorem test_st64_be : (after (step (s_st64 .be))).map (·.mem) = some [(0x300, 0xFF#8), (0x301, 0xFD#8),
    (0x303, 0x6F#8), (0x304, 0x6C#8), (0x305, 0x6C#8), (0x306, 0x65#8), (0x307, 0x48#8)] := by decide

/-- `ld64 v0, [v1]` with v1 = 0x408, P3's second word as a big-endian image. -/
def s_ld64 : State :=
  stateWith ((agentWith [.ld64 0 1] .ready).setVar 1 0x408#64) [(0x408, 0xFF#8), (0x409, 0xF9#8), (0x40F, 0x01#8)] .be

theorem test_ld64_be : (after (step s_ld64)).map (fun t => t.agents.map (·.getVar 0)) =
    some [0xFFF9000000000001#64] := by decide

/-- `add v5, v5, -1` and `bne v5, 0, 3` of P3. -/
def s_cmd (c : Command) : State := stateWith ((agentWith [c] .ready).setVar 5 0#64) [] .le

theorem test_add_wraps : (after (step (s_cmd (.add 5 5 0xFFFFFFFFFFFFFFFF#64)))).map
    (fun t => t.agents.map (fun a => (a.getVar 5, a.pc))) = some [(0xFFFFFFFFFFFFFFFF#64, 1)] := by decide
theorem test_bne_not_taken : (after (step (s_cmd (.bne 5 (.const 0#64) 3)))).map (fun t => t.agents.map (·.pc)) =
    some [1] := by decide
theorem test_beq_taken : (after (step (s_cmd (.beq 5 (.var 4) 3)))).map (fun t => t.agents.map (·.pc)) =
    some [3] := by decide

-- Two agents that both present a request: the one whose turn it is is served, the other is untouched
theorem test_two_agents :
    (after (step { State.reset with turn := 1, agents :=
      [agentWith [] (.presenting (Request.word 0x1#4 0#64) (.toVar 0)),
       agentWith [] (.presenting (Request.word 0x2#4 0#64) (.toVar 0))] })).map
      (fun t => t.agents.map (fun a => (a.getVar 0, a.pc))) =
        some [(0#64, 0), (0xFFFA000000000000#64, 1)] := by decide

/-! ## Witnesses: a state and operands that meet the hypotheses of each statement together -/

theorem witness_EncDoubleKeepsUpToBoundaryElseCanonNan :
    (Request.word 0x0#4 boundary).op = 0x0#4 ∧ (Request.word 0x0#4 boundary).rsv = 0#17 := by decide
theorem witness_EncNullUndefEmptyAreFixedWords : ∀ op ∈ [0x1#4, 0x2#4, 0x3#4],
    (Request.word op 0#64).rsv = 0#17 ∧ (Request.word op 0#64).op = op := by decide
theorem witness_EncBoolSetsOnlyPayloadBitZero :
    (Request.word 0x4#4 2#64).op = 0x4#4 ∧ (Request.word 0x4#4 2#64).rsv = 0#17 := by decide
theorem witness_EncIntKeepsLow48BitsUnderItsTag :
    (Request.word 0x5#4 0x0001000000000000#64).op = 0x5#4 ∧ (Request.word 0x5#4 0x0001000000000000#64).rsv = 0#17 := by
  decide
theorem witness_EncCustomKeepsLow48BitsUnderItsTag :
    (Request.word 0x7#4 0x0001000000000000#64).op = 0x7#4 ∧ (Request.word 0x7#4 0x0001000000000000#64).rsv = 0#17 := by
  decide

/-- The ENC_STRING request of L2.5 with a zero lane 2. -/
def q_str : Request := Request.unpack 0#64 0x0045440042410506#64

theorem witness_EncStrPlacesLanesUpToFirstZero : q_str.op = 0x6#4 ∧ q_str.rsv = 0#17 ∧
    q_str.sIn.toList.getD 1 0#8 ≠ 0#8 ∧ q_str.sIn.toList.getD 2 0#8 = 0#8 ∧ 2 < min q_str.sAvail.toNat 5 := by decide
theorem witness_RawOperationsReturnTheWordUnchanged : ∀ op ∈ [0x8#4, 0xE#4],
    ((Request.word op 1#64).op = 0x8#4 ∨ (Request.word op 1#64).op = 0xE#4) ∧ (Request.word op 1#64).rsv = 0#17 := by
  decide
theorem witness_ClassifyAnswersTheCodeOfTheRange :
    (Request.word 0x9#4 boundary).op = 0x9#4 ∧ (Request.word 0x9#4 boundary).rsv = 0#17 := by decide
-- both ends of every range of R72, with the code the table gives
theorem witness_classify_range_0 :
    askOp 0x9#4 0x0000000000000000#64 = ok 0#64 ∧ askOp 0x9#4 0xFFF8FFFFFFFFFFFF#64 = ok 0#64 := by decide
theorem witness_classify_range_1 :
    askOp 0x9#4 0xFFF9000000000000#64 = ok 1#64 ∧ askOp 0x9#4 0xFFF9FFFFFFFFFFFF#64 = ok 1#64 := by decide
theorem witness_classify_range_2 :
    askOp 0x9#4 0xFFFA000000000000#64 = ok 2#64 ∧ askOp 0x9#4 0xFFFAFFFFFFFFFFFF#64 = ok 2#64 := by decide
theorem witness_classify_range_3 :
    askOp 0x9#4 0xFFFB000000000000#64 = ok 3#64 ∧ askOp 0x9#4 0xFFFBFFFFFFFFFFFF#64 = ok 3#64 := by decide
theorem witness_classify_range_4 :
    askOp 0x9#4 0xFFFC000000000000#64 = ok 4#64 ∧ askOp 0x9#4 0xFFFCFFFFFFFFFFFF#64 = ok 4#64 := by decide
theorem witness_classify_range_5 :
    askOp 0x9#4 0xFFFD000000000000#64 = ok 5#64 ∧ askOp 0x9#4 0xFFFDFFFFFFFFFFFF#64 = ok 5#64 := by decide
theorem witness_classify_range_6 :
    askOp 0x9#4 0xFFFE000000000000#64 = ok 6#64 ∧ askOp 0x9#4 0xFFFEFFFFFFFFFFFF#64 = ok 6#64 := by decide
theorem witness_classify_range_7 :
    askOp 0x9#4 0xFFFF000000000000#64 = ok 7#64 ∧ askOp 0x9#4 0xFFFFFFFFFFFFFFFF#64 = ok 7#64 := by decide
theorem witness_DecodedVariantAndPayloadDetermineTheWord :
    decodeWord 0xFFF9000000001234#64 = decodeWord 0xFFF9000000001234#64 := rfl
/-- Two AS_BOOL requests: payload 0, and only payload bit 47 set. -/
def q_false : Request := Request.word 0xA#4 0xFFFB000000000000#64
def q_bit47 : Request := Request.word 0xA#4 0xFFFB800000000000#64

theorem witness_AsBoolIsTrueIffPayloadNonzero :
    (q_false.op = 0xA#4 ∧ q_false.rsv = 0#17 ∧ q_false.a.extractLsb' 48 16 = 0xFFFB#16) ∧
    (q_bit47.op = 0xA#4 ∧ q_bit47.rsv = 0#17 ∧ q_bit47.a.extractLsb' 48 16 = 0xFFFB#16) := by decide
theorem witness_AsIntAndAsCustomZeroExtendThePayload :
    ((Request.word 0xB#4 0xFFFCFFFFFFFFFFFF#64).rsv = 0#17 ∧ (Request.word 0xB#4 0xFFFCFFFFFFFFFFFF#64).op = 0xB#4 ∧
      (0xFFFCFFFFFFFFFFFF#64 : Word).extractLsb' 48 16 = 0xFFFC#16) ∧
    ((Request.word 0xC#4 0xFFFE000000000000#64).rsv = 0#17 ∧ (Request.word 0xC#4 0xFFFE000000000000#64).op = 0xC#4 ∧
      (0xFFFE000000000000#64 : Word).extractLsb' 48 16 = 0xFFFE#16) := by decide

/-- An AS_STRING request on a word with a non-zero byte 5 (L2.8). -/
def q_asStr : Request := Request.word 0xD#4 0xFFFDAA0000000041#64

theorem witness_AsStrCopiesFiveBytesAndATerminator :
    q_asStr.op = 0xD#4 ∧ q_asStr.rsv = 0#17 ∧ q_asStr.a.extractLsb' 48 16 = 0xFFFD#16 := by decide
-- L2.9, one for each guarded accessor, and AS_RAW
theorem witness_WrongVariantGivesDrawsAndSetsTheMark :
    (Request.word 0xA#4 0xFFFC000000000001#64).rsv = 0#17 ∧ (classifyWord 0xFFFC000000000001#64).code ≠ 3#4 ∧
    (classifyWord 0xFFF8FFFFFFFFFFFF#64).code ≠ 4#4 ∧ (classifyWord 0xFFFC000000000001#64).code ≠ 6#4 ∧
    (classifyWord 0x3FF0000000000000#64).code ≠ 5#4 ∧
    (∀ op ∈ [0xA#4, 0xB#4, 0xC#4, 0xD#4, 0xE#4], (Request.word op 1#64).op = op) := by decide
theorem witness_IllegalRequestAnswersZeroAndItsStatus :
    (Request.unpack 0#64 0xF#64).op = 0xF#4 ∧ (Request.unpack 0#64 0xF#64).rsv = 0#17 ∧
    (Request.unpack 0#64 0x11#64).op = 0x1#4 ∧ (Request.unpack 0#64 0x11#64).rsv ≠ 0#17 := by decide
theorem witness_StatusTellsLegalFromIllegal :
    ((Request.unpack 0#64 0x11#64).op = 0xF#4 ∨ (Request.unpack 0#64 0x11#64).rsv ≠ 0#17) ∧
    ¬ ((Request.unpack 0#64 0x1#64).op = 0xF#4 ∨ (Request.unpack 0#64 0x1#64).rsv ≠ 0#17) := by decide
theorem witness_EveryInstructionRespondsAndTouchesNoMemory :
    (Instr.asBool 0xFFFB000000000000#64).guardHolds = true := by decide
theorem witness_ResponseDependsOnTheRequestAlone : (Instr.asInt 0xFFFC000000000001#64).guardHolds = true ∧
    (after (exec (.asInt 0xFFFC000000000001#64) State.reset)).isSome = true ∧
    (after (exec (.asInt 0xFFFC000000000001#64) s_load)).isSome = true := by decide
theorem witness_OrderOfTwoRequestsChangesNoResponse :
    (Instr.asInt 0xFFFC000000000001#64).guardHolds = true ∧ (Instr.encNull).guardHolds = true := by decide

/-- ENC_NULL with and without an operand word, and ENC_STRING with other lanes above s_avail (R84). -/
def q_null : Request := Request.word 0x1#4 0xDEADBEEF00000000#64
def q_three : Request := Request.unpack 0#64 0x0045444342410306#64
def q_three' : Request := Request.unpack 5#64 0x00FFFF4342410306#64

theorem witness_UnusedFieldsHaveNoEffect :
    (q_null.rsv = 0#17 ∧ (Request.word 0x1#4 0#64).rsv = 0#17 ∧ q_null.op = (Request.word 0x1#4 0#64).op ∧
      q_null.op = 0x1#4) ∧
    (q_three.rsv = 0#17 ∧ q_three'.rsv = 0#17 ∧ q_three.op = q_three'.op ∧ q_three.op = 0x6#4 ∧
      q_three.sAvail = q_three'.sAvail ∧
      ∀ i < min q_three.sAvail.toNat 5, q_three.sIn.toList.getD i 0#8 = q_three'.sIn.toList.getD i 0#8) ∧
    (Request.unpack 0#64 0x0100000000000000#64).rsv ≠ 0#17 := by decide
theorem witness_ClassifyOfAnEncodedValueIsItsVariant :
    (Variant.integer = .integer ∧ ∃ a, Instr.encInt 5#64 = .encInt a) ∧ (Variant.null = .null ∧ Instr.encNull = .encNull) :=
  ⟨⟨rfl, _, rfl⟩, rfl, rfl⟩
theorem witness_CanonicalisationCollapsesForeignNansOnly :
    0xFFF8FFFFFFFFFFFF < (0xFFF9000000000000#64 : Word).toNat ∧ 0xFFF8FFFFFFFFFFFF < (0xFFFFFFFFFFFFFFFF#64 : Word).toNat ∧
    (0xFFF8FFFFFFFFFFFF#64 : Word).toNat ≤ 0xFFF8FFFFFFFFFFFF := by decide
theorem witness_DecodeOfEncodeIsTheInstruction : (Instr.reserved 0x1#4 0x1#17).wf = true := by decide
theorem witness_OpcodeTableAndDecoderAgree :
    (TableRow.legal 0xE#4) ∈ opcodeTable ∧ (TableRow.legal 0xE#4).holds 0xE#64 = true ∧
    (TableRow.mk 0xF#4 0xF#64 0xF#64) ∈ opcodeTable ∧ (TableRow.mk 0xF#4 0xF#64 0xF#64).holds 0xFF#64 = true := by decide

/-- One agent that presents AS_STRING with a buffer at 0x200. -/
def s_buffer : State := stateWith (agentWith [] (.presenting q_asStr (.toBuffer 0x200#64))) [(0x201, 0xFF#8)] .be

theorem witness_StepRunsTheDecodedRequest :
    s_buffer.current = some (agentWith [] (.presenting q_asStr (.toBuffer 0x200#64))) ∧
    (after (exec (decode q_asStr) s_buffer)).isSome = true := by decide
theorem witness_StepKeepsTheMachineInvariant : s_load.Inv ∧ (after (step s_load)).isSome = true :=
  ⟨⟨by decide, by decide, by decide, by intro p hp; simp [s_load, stateWith, State.reset] at hp⟩, by decide⟩
theorem witness_MarkIsSetExactlyByABrokenContract :
    (after (step s_buffer)).isSome = true ∧ s_buffer.callerObeys = true ∧
    (State.reset.withFetchWord 64 0xB).callerObeys = false := by decide
theorem witness_StepTouchesOnlyTheAgentWhoseTurnItIs : (after (step s_load)).isSome = true := by decide
theorem witness_AdapterChangesOneByteAtATime :
    (Memory.wf s_load.mem ∧ s_load.current.map (·.phase) = some (.loading 0x100#64 [0x48#8, 0x69#8] 0) ∧
      (after (step s_load)).isSome = true) ∧
    (Memory.wf s_buffer.mem ∧ s_buffer.current.map (·.phase) = some (.presenting q_asStr (.toBuffer 0x200#64)) ∧
      (after (step s_buffer)).isSome = true) ∧
    (Memory.wf s_store.mem ∧ s_store.current.map (·.phase) = some (.storing 0xFFFFFFFFFFFFFFFF#64 [0x6F#8, 0x00#8]) ∧
      (after (step s_store)).isSome = true) := by decide

/-- The adapter before its first read. -/
def a_first : Agent := agentWith [] (.loading 0x100#64 [] 0)

theorem witness_AdapterEncodesTheTextInMemory : (stateWith a_first [(0x100, 0x48#8)] .le).agents = [a_first] ∧
    (stateWith a_first [(0x100, 0x48#8)] .le).turn = 0 ∧ a_first.phase = .loading 0x100#64 [] 0 := by decide
theorem witness_AdapterWritesTheSixByteBuffer : Memory.wf s_buffer.mem ∧
    s_buffer.agents = [agentWith [] (.presenting q_asStr (.toBuffer 0x200#64))] ∧ s_buffer.turn = 0 ∧
    q_asStr.op = 0xD#4 ∧ q_asStr.rsv = 0#17 ∧ q_asStr.a.extractLsb' 48 16 = 0xFFFD#16 := by decide
-- one command of each kind, at pc 0 of an agent that is ready
theorem witness_HarnessMovesAndBranches : ∀ c ∈ [Command.mov 1 7#64, .add 5 5 1#64, .beq 5 (.var 4) 3,
    .bne 5 (.const 0#64) 3, .jmp 9, .halt],
    ((s_cmd c).current.bind (fun a => a.prog[a.pc]?)) = some c ∧ (s_cmd c).current.map (·.phase) = some .ready := by
  decide
theorem witness_HarnessLoadsAndStoresImages :
    (Memory.wf s_ld64.mem ∧ (s_ld64.current.bind (fun a => a.prog[a.pc]?)) = some (.ld64 0 1) ∧
      s_ld64.current.map (·.phase) = some .ready) ∧
    (Memory.wf (s_st64 .be).mem ∧ ((s_st64 .be).current.bind (fun a => a.prog[a.pc]?)) = some (.st64 0 0x300#64) ∧
      (s_st64 .be).current.map (·.phase) = some .ready) := by decide
theorem witness_HarnessPresentsRequests : ∀ c ∈ [Command.req (.var 1) 0x5#64 3, .asStrAt 0 0x200#64, .encStrAt 0x100#64 2],
    ((s_cmd c).current.bind (fun a => a.prog[a.pc]?)) = some c ∧ (s_cmd c).current.map (·.phase) = some .ready := by
  decide

end Sys2Proof.Tests
end

/-! # Proofs about the state: the variant code, what exec and a step leave alone, TaggedEq (10_state.md) -/

namespace Sys2Proof.Machine

/-! ## The variant code of a word -/

/-- R32's formula on the tag: every Double has code 0, the seven reserved tags count up from 1. -/
theorem classifyWord_code_toNat (w : Word) :
    (classifyWord w).code.toNat = (tagOf w).toNat - 0xFFF8 := by
  rcases classifyWord_cases w with ⟨htag, hv⟩ | ⟨htag, hv⟩ | ⟨htag, hv⟩ | ⟨htag, hv⟩ | ⟨htag, hv⟩ |
    ⟨htag, hv⟩ | ⟨htag, hv⟩ | ⟨htag, hv⟩
  · rw [hv, Nat.sub_eq_zero_of_le htag]
    rfl
  all_goals
    rw [hv, htag]
    rfl

/-- Settles O10, from R32's formula on the tag; the bound is that a tag has 16 bits. -/
theorem variantCodeIsTagMinusBoundaryTag : Obligations.VariantCodeIsTagMinusBoundaryTag := by
  intro w
  have hcode := classifyWord_code_toNat w
  have htag : (tagOf w).toNat < 2 ^ 16 := (tagOf w).isLt
  exact ⟨by rw [hcode, tagOf_toNat], by omega⟩

/-! ## What exec answers -/

/-- The next state of a contract violation, its frame written out (R132, R164). -/
theorem exec_of_not_guardHolds (i : Instr) (s : State) (h : i.guardHolds = false) :
    exec i s = .next { s with
      resp := some ⟨Config.drawR s.draws, Config.drawSOut s.draws, .ok⟩
      contractViolated := true
      draws := s.draws + 1 } :=
  (exec_by_guard i).2 h s

/-- Settles O18, by whether the caller keeps the contract. -/
theorem everyInstructionRespondsAndTouchesNoMemory :
    Obligations.EveryInstructionRespondsAndTouchesNoMemory := by
  intro i s
  cases hg : i.guardHolds with
  | true =>
    obtain ⟨p, -, hexec⟩ := (exec_by_guard i).1 hg
    exact ⟨_, p, hexec s, rfl, fun _ => rfl, rfl, rfl, rfl, rfl, fun _ => ⟨rfl, rfl⟩⟩
  | false =>
    exact ⟨_, _, exec_of_not_guardHolds i s hg, rfl, fun _ => rfl, rfl, rfl, rfl, rfl, by simp⟩

/-- Settles O19: under its guard an instruction has one response, the same in every state. -/
theorem responseDependsOnTheRequestAlone : Obligations.ResponseDependsOnTheRequestAlone := by
  intro i s s' t t' hg ht ht'
  obtain ⟨p, -, hexec⟩ := (exec_by_guard i).1 hg
  have resp_eq : ∀ u v : State, exec i u = .next v → v.resp = some p := by
    intro u v huv
    rw [hexec u] at huv
    cases huv
    rfl
  rw [resp_eq s t ht, resp_eq s' t' ht']

/-! ## TaggedEq on numbers -/

/-- A NaN is an absolute value above that of infinity (R35). -/
theorem isNaN_iff (w : Word) : isNaN w = true ↔ 0x7FF0000000000000 < w.toNat % 2 ^ 63 := by
  have hexp : (exponent w).toNat = w.toNat / 2 ^ 52 % 2 ^ 11 := by
    rw [exponent, BitVec.extractLsb'_toNat, Nat.shiftRight_eq_div_pow]
  have hfrac : (fraction w).toNat = w.toNat % 2 ^ 52 := by
    rw [fraction, BitVec.extractLsb'_toNat, Nat.shiftRight_zero]
  simp only [isNaN, Bool.and_eq_true, beq_iff_eq, bne_iff_ne, ne_eq, ← BitVec.toNat_inj, hexp, hfrac,
    BitVec.toNat_ofNat]
  omega

/-- A zero is an absolute value 0 (R35). -/
theorem isZero_iff (w : Word) : isZero w = true ↔ w.toNat % 2 ^ 63 = 0 := by
  simp [isZero, ← BitVec.toNat_inj, BitVec.extractLsb'_toNat]

theorem numOk_eq_false_iff (w : Word) : numOk w = false ↔ 0xFFF8FFFFFFFFFFFF < w.toNat := by
  rw [← Bool.not_eq_true, numOk_iff, Nat.not_le]

theorem isNaN_eq_false_iff (w : Word) : isNaN w = false ↔ w.toNat % 2 ^ 63 ≤ 0x7FF0000000000000 := by
  rw [← Bool.not_eq_true, isNaN_iff, Nat.not_lt]

/-- TaggedEq of two Doubles is float equality (R36). -/
theorem taggedEq_of_numOk (x y : Word) (hx : numOk x = true) (hy : numOk y = true) :
    taggedEq x y = true ↔
      isNaN x = false ∧ isNaN y = false ∧ (x = y ∨ (isZero x = true ∧ isZero y = true)) := by
  rw [taggedEq, if_pos (by rw [hx, hy, Bool.and_self])]
  by_cases hnan : (isNaN x || isNaN y) = true
  · have hnot : ¬ (isNaN x = false ∧ isNaN y = false) := by simpa [imp_iff_or_not, or_comm] using hnan
    rw [if_pos hnan, ← and_assoc]
    simp [hnot]
  · obtain ⟨hnx, hny⟩ : isNaN x = false ∧ isNaN y = false := by simpa using hnan
    rw [if_neg hnan]
    by_cases hzero : (isZero x && isZero y) = true
    · rw [if_pos hzero]
      simp [hnx, hny, Bool.and_eq_true_iff.mp hzero]
    · rw [if_neg hzero, ← Bool.and_eq_true_iff]
      simp [hnx, hny, hzero]

/-- TaggedEq of two words above the boundary is equality of their bits (R36). -/
theorem taggedEq_of_not_numOk (x y : Word) (hx : numOk x = false) (hy : numOk y = false) :
    taggedEq x y = true ↔ x = y := by
  simp [taggedEq, hx, hy]

/-- TaggedEq of a Double and a word above the boundary is false (R36). -/
theorem taggedEq_of_numOk_not (x y : Word) (h : numOk y = !numOk x) : taggedEq x y = false := by
  cases hx : numOk x <;> simp [taggedEq, hx, h]

/-- Settles O26, by which of the two words are Doubles. -/
theorem taggedEqIsFloatEqualityOnDoublesAndBitEqualityElsewhere :
    Obligations.TaggedEqIsFloatEqualityOnDoublesAndBitEqualityElsewhere := by
  intro x y
  simp only [← numOk_iff, ← numOk_eq_false_iff, ← isNaN_eq_false_iff, ← isZero_iff]
  cases hx : numOk x with
  | true =>
    cases hy : numOk y with
    | true => simp [taggedEq_of_numOk x y hx hy]
    | false => simp [taggedEq_of_numOk_not x y (by simp [hx, hy])]
  | false =>
    cases hy : numOk y with
    | true => simp [taggedEq_of_numOk_not x y (by simp [hx, hy])]
    | false => simp [taggedEq_of_not_numOk x y hx hy]

/-! ## What a step leaves unchanged of the agents -/

/-- What a step does to the agents: nothing, or it replaces the one whose turn it is by one with the same program. -/
theorem step_agents (s t : State) (h : step s = .next t) :
    t.agents = s.agents ∨
      ∃ a b : Agent, s.current = some a ∧ b.prog = a.prog ∧ t.agents = s.agents.set s.turn b := by
  cases step_kind s t h with
  | idle _ ht => exact .inl (by rw [ht, State.pass_agents])
  | host a u hc _ hu ht =>
    rw [ht, State.pass_agents]
    exact hu.agents.imp_right fun ⟨b, hprog, _, hset⟩ => ⟨a, b, hc, hprog, hset⟩
  | served a _ reply p _ _ hc _ _ _ _ _ ht =>
    exact .inr ⟨a, takeResponse p a reply, hc, takeResponse_prog p a reply, by rw [ht, State.pass_agents]⟩

theorem step_hostEndian (s t : State) (h : step s = .next t) : t.hostEndian = s.hostEndian := by
  cases step_kind s t h with
  | idle _ ht => rw [ht, State.pass_hostEndian]
  | host _ u _ _ hu ht => rw [ht, State.pass_hostEndian, hu.hostEndian]
  | served _ _ _ _ _ _ _ _ _ _ _ _ ht => rw [ht, State.pass_hostEndian]

/-- Replacing the agent whose turn it is by one with its program changes no agent's program. -/
theorem prog_getElem?_set_current (s : State) (a b : Agent) (hc : s.current = some a) (hprog : b.prog = a.prog)
    (k : Nat) : ((s.agents.set s.turn b)[k]?).map Agent.prog = (s.agents[k]?).map Agent.prog := by
  obtain ⟨hlt, -⟩ := s.current_eq_some a hc
  rw [← State.setAgent_agents, State.setAgent_getElem? s b hlt]
  split
  case isTrue hk =>
    rw [hk, ← State.current, hc]
    exact congrArg some hprog
  case isFalse => rfl

/-- Settles O43, from what a step does to the agents. -/
theorem stepTouchesOnlyTheAgentWhoseTurnItIs : Obligations.StepTouchesOnlyTheAgentWhoseTurnItIs := by
  intro s t h
  refine ⟨step_hostEndian s t h, ?_⟩
  rcases step_agents s t h with hsame | ⟨a, b, hc, hprog, hset⟩
  · simp [hsame]
  · rw [hset]
    exact ⟨List.length_set, fun k hk => List.getElem?_set_ne hk.symm, prog_getElem?_set_current s a b hc hprog⟩

/-! ## A step that serves a request -/

/-- The step of an agent that presents a request serves that request. -/
theorem step_of_presenting (s : State) (a : Agent) (q : Request) (reply : Reply) (hc : s.current = some a)
    (hq : a.phase = .presenting q reply) : step s = serve q reply a s := by
  simp only [step, hc, act, hq]

/-- Settles O36: the step serves the presented request, and serving it is exec and then the delivery. -/
theorem stepRunsTheDecodedRequest : Obligations.StepRunsTheDecodedRequest := by
  intro s a q reply hc hq
  rw [step_of_presenting s a q reply hc hq, serve]
  exact ⟨fun t ht => by rw [ht], fun f hf => by rw [hf], fun r hr => by rw [hr]⟩

/-! ## Presenting packed bits -/

/-- A number of 128 bits is read by the table's decoder as its bits are by the decoder. -/
theorem decodeTableWord_toNat (w : BitVec 128) : decodeTableWord 128 w.toNat = some (decodeBits w) := by
  simp [decodeTableWord, Nat.mod_eq_of_lt w.isLt, w.isLt]

theorem State.withFetchWord_toNat (s : State) (w : BitVec 128) :
    s.withFetchWord 128 w.toNat = s.presentBits w := by
  rw [State.withFetchWord, Nat.mod_eq_of_lt w.isLt, BitVec.ofNat_toNat, BitVec.setWidth_eq]

/-- Agent 0 as `presentBits` leaves it: it presents the request of `w`, and takes the result in v0 (log 2). -/
def State.fetchAgent (s : State) (w : BitVec 128) : Agent :=
  { s.agents.headD Agent.init with phase := .presenting (Request.ofBits w) (.toVar 0) }

theorem State.presentBits_current (s : State) (w : BitVec 128) :
    (s.presentBits w).current = some (s.fetchAgent w) := rfl

theorem State.presentBits_set_head? (s : State) (w : BitVec 128) (b : Agent) :
    ((s.presentBits w).agents.set (s.presentBits w).turn b).head? = some b := rfl

/-- Settles O37: the presented bits are agent 0's request, and the step serves it. -/
theorem fetchWordIsServedByTheNextStep : Obligations.FetchWordIsServedByTheNextStep := by
  intro s w
  refine ⟨decodeTableWord_toNat w, ?_⟩
  rw [State.withFetchWord_toNat]
  obtain ⟨p, cv, n, -, -, -, hexec, hserve⟩ :=
    serve_next (Request.ofBits w) (.toVar 0) (s.fetchAgent w) (s.presentBits w)
  refine ⟨s.fetchAgent w, p, _, _, s.presentBits_current w, hexec, rfl,
    (step_of_presenting _ _ _ _ (s.presentBits_current w) rfl).trans hserve, State.pass_resp _, ?_⟩
  rw [State.pass_agents]
  exact s.presentBits_set_head? w _

end Sys2Proof.Machine

/-! # Proofs about memory: the invariant, memory images, the adapter, the harness's accesses (20_memory.md) -/

namespace Sys2Proof.Machine

/-! ## The invariant -/

/-- Passing the turn gives the invariant's clause about the turn; the others are about fields it leaves alone. -/
theorem State.pass_inv (u : State) (hmem : Memory.wf u.mem) (hphases : ∀ a ∈ u.agents, a.phase.wf = true)
    (hresp : ∀ p, u.resp = some p → p.wf = true) : u.pass.Inv where
  mem := by rwa [State.pass_mem]
  phases := by rwa [State.pass_agents]
  turn := by
    rw [State.pass_agents]
    exact u.pass_turn_lt
  resp := by rwa [State.pass_resp]

/-- Agents whose adapters are in order stay so when one of them is replaced by one whose adapter is in order. -/
theorem phase_wf_of_mem_set (l : List Agent) (k : Nat) (b : Agent) (hl : ∀ a ∈ l, a.phase.wf = true)
    (hb : b.phase.wf = true) : ∀ a ∈ l.set k b, a.phase.wf = true := by
  intro a ha
  rcases List.mem_or_eq_of_mem_set ha with hmem | rfl
  · exact hl a hmem
  · exact hb

theorem State.current_mem (s : State) (a : Agent) (h : s.current = some a) : a ∈ s.agents :=
  List.mem_of_getElem? h

/-- An action of the host's side keeps every adapter in order. -/
theorem HostAction.phases {a : Agent} {s u : State} (hu : HostAction a s u) (ha : a ∈ s.agents)
    (hs : ∀ b ∈ s.agents, b.phase.wf = true) : ∀ b ∈ u.agents, b.phase.wf = true := by
  rcases hu.agents with hsame | ⟨b, -, hb, hset⟩
  · rwa [hsame]
  · rw [hset]
    exact phase_wf_of_mem_set _ _ _ hs (hb (hs a ha))

/-- Settles O40, by what the step does: pass the turn, one action of the host's side, or serve a request. -/
theorem stepKeepsTheMachineInvariant : Obligations.StepKeepsTheMachineInvariant := by
  intro s t hs h
  obtain ⟨hmem, hphases, -, hresp⟩ := hs
  cases step_kind s t h with
  | idle _ ht =>
    rw [ht]
    exact s.pass_inv hmem hphases hresp
  | host a u hc _ hu ht =>
    rw [ht]
    refine u.pass_inv (hu.mem hmem) (hu.phases (s.current_mem a hc) hphases) ?_
    rwa [hu.resp]
  | served a _ reply p _ _ _ _ hp _ _ _ ht =>
    rw [ht]
    refine State.pass_inv _ hmem (phase_wf_of_mem_set _ _ _ hphases (takeResponse_phase_wf p a reply)) ?_
    intro p' hp'
    cases hp'
    exact hp

/-! ## The memory image of a word -/

/-- The image read back is the word (R55). -/
theorem wordOfImage_imageByte (e : Endian) (w : Word) : wordOfImage e (imageByte e w) = w := by
  refine word_ext _ _ fun j hj => ?_
  cases e with
  | le => exact byteOf_wordOfImage_le _ j hj
  | be => rw [byteOf_wordOfImage_be _ j hj, imageByte, Nat.sub_sub_self (by omega)]

/-- The image of the word read from eight bytes is those bytes (R55). -/
theorem imageByte_wordOfImage (e : Endian) (f : Nat → Byte) (j : Nat) (hj : j < 8) :
    imageByte e (wordOfImage e f) j = f j := by
  cases e with
  | le => exact byteOf_wordOfImage_le f j hj
  | be => rw [imageByte, byteOf_wordOfImage_be f _ (by omega), Nat.sub_sub_self (by omega)]

/-- Settles O33: the two orders place the same bytes, in opposite directions. -/
theorem memoryImageReadsBackAsTheWord : Obligations.MemoryImageReadsBackAsTheWord :=
  fun w => ⟨fun e => wordOfImage_imageByte e w, fun _ _ => rfl, fun _ _ => rfl⟩

theorem length_image (e : Endian) (w : Word) : (image e w).length = 8 := rfl

theorem getElem_image (e : Endian) (w : Word) (j : Nat) (hj : j < 8) : (image e w)[j] = imageByte e w j := by
  interval_cases j <;> rfl

/-! ## Writing several bytes -/

theorem cellAt_add_one (base : Word) (i : Nat) : cellAt (base + 1#64) i = cellAt base (i + 1) := by
  rw [cellAt, cellAt, BitVec.add_assoc, BitVec.ofNat_add, BitVec.add_comm 1#64]

/-- Less than 2^64 bytes from one base are in different cells, though addresses wrap (log 7). -/
theorem cellAt_inj {base : Word} {i j : Nat} (hi : i < 2 ^ 64) (hj : j < 2 ^ 64)
    (h : cellAt base i = cellAt base j) : i = j := by
  simp only [cellAt, BitVec.toNat_add, BitVec.toNat_ofNat] at h
  omega

/-- Writing bytes leaves every cell but theirs. -/
theorem Memory.read_writeBytes_of_ne (bytes : List Byte) (m : Memory) (hm : m.wf) (base : Word) (x : Nat)
    (hx : ∀ i < bytes.length, x ≠ cellAt base i) : (m.writeBytes base bytes).read x = m.read x := by
  induction bytes generalizing m base with
  | nil => rfl
  | cons b rest ih =>
    have hrest : ∀ i < rest.length, x ≠ cellAt (base + 1#64) i := by
      intro i hi
      rw [cellAt_add_one]
      exact hx (i + 1) (by simpa using hi)
    rw [Memory.writeBytes, ih _ (Memory.wf_write m hm _ (Memory.cellAt_lt base 0) b) _ hrest,
      Memory.read_write m hm, if_neg (hx 0 (by simp))]

/-- Byte i of the bytes written stands in the i-th cell from the base. -/
theorem Memory.read_writeBytes_cellAt (bytes : List Byte) (m : Memory) (hm : m.wf) (base : Word)
    (hlen : bytes.length ≤ 2 ^ 64) (i : Nat) (hi : i < bytes.length) :
    (m.writeBytes base bytes).read (cellAt base i) = bytes[i] := by
  induction bytes generalizing m base i with
  | nil => simp at hi
  | cons b rest ih =>
    have hm' : Memory.wf (m.write (cellAt base 0) b) := Memory.wf_write m hm _ (Memory.cellAt_lt base 0) b
    simp only [List.length_cons] at hlen hi
    rw [Memory.writeBytes]
    cases i with
    | zero =>
      have hfirst : ∀ j < rest.length, cellAt base 0 ≠ cellAt (base + 1#64) j := by
        intro j hj h
        rw [cellAt_add_one] at h
        exact absurd (cellAt_inj (by omega) (by omega) h) (by omega)
      rw [Memory.read_writeBytes_of_ne _ _ hm' _ _ hfirst, Memory.read_write m hm, if_pos rfl]
      rfl
    | succ k =>
      rw [← cellAt_add_one]
      exact ih _ hm' _ (by omega) k (by omega)

/-! ## The step of an agent in each phase of the host's side -/

/-- An agent that is ready does the command at its pc. -/
theorem step_of_ready (s : State) (a : Agent) (c : Command) (hc : s.current = some a) (hr : a.phase = .ready)
    (hcmd : a.prog[a.pc]? = some c) : step s = .next (runCommand c a s).pass := by
  simp only [step, hc, act, hr, runReady, hcmd]

theorem step_of_loading (s : State) (a : Agent) (addr : Word) (got : List Byte) (d : VarId)
    (hc : s.current = some a) (hl : a.phase = .loading addr got d) :
    step s = .next (loadByte addr got d a s).pass := by
  simp only [step, hc, act, hl]

theorem step_of_storing (s : State) (a : Agent) (addr : Word) (lanes : List Byte)
    (hc : s.current = some a) (hl : a.phase = .storing addr lanes) :
    step s = .next (storeByte addr lanes a s).pass := by
  simp only [step, hc, act, hl]

/-! ## The commands that access memory or present a request -/

/-- Settles O48, by the laws of an image and of writing several bytes. -/
theorem harnessLoadsAndStoresImages : Obligations.HarnessLoadsAndStoresImages := by
  intro s a hm hc hr
  constructor
  · intro d v hcmd
    refine ⟨_, _, step_of_ready s a _ hc hr hcmd, State.pass_mem _, State.pass_agents _, fun j hj => ?_⟩
    exact imageByte_wordOfImage _ _ j hj
  · intro v addr hcmd
    refine ⟨_, step_of_ready s a _ hc hr hcmd, State.pass_agents _, fun j hj => ?_, fun x hx => ?_⟩
    · rw [State.pass_mem, ← getElem_image _ _ j hj]
      exact Memory.read_writeBytes_cellAt (image _ _) _ hm _ (by simp [length_image]) j hj
    · rw [State.pass_mem]
      exact Memory.read_writeBytes_of_ne _ _ hm _ _ hx

/-- REQ_LO of an AS_STRING request is its op code alone (R80). -/
theorem unpack_asStr (w : Word) : Request.unpack w 0xD#64 = encode (.asStr w) := by
  have hlo : (encode (.asStr w)).lo = 0xD#64 :=
    show (encode (.asStr 0#64)).lo = 0xD#64 by decide
  rw [← hlo]
  exact Request.unpack_lo (encode (.asStr w))

/-- A command that only writes its own agent leaves the memory, the response and the mark. -/
theorem step_of_ready_setAgent (s : State) (a b : Agent) (c : Command) (hc : s.current = some a)
    (hr : a.phase = .ready) (hcmd : a.prog[a.pc]? = some c) (hrun : runCommand c a s = s.setAgent b) :
    ∃ t : State, step s = .next t ∧ t.mem = s.mem ∧ t.resp = s.resp ∧
      t.contractViolated = s.contractViolated ∧ t.agents = s.agents.set s.turn b := by
  refine ⟨(s.setAgent b).pass, ?_, State.pass_mem _, State.pass_resp _, State.pass_contractViolated _,
    State.pass_agents _⟩
  rw [step_of_ready s a c hc hr hcmd, hrun]

/-- Settles O49: each of the three commands only writes its own agent. -/
theorem harnessPresentsRequests : Obligations.HarnessPresentsRequests := by
  intro s a hc hr
  refine ⟨fun hi lo d hcmd => ?_, fun v addr hcmd => ?_, fun addr d hcmd => ?_⟩
  · exact step_of_ready_setAgent s a _ _ hc hr hcmd rfl
  · rw [← unpack_asStr]
    exact step_of_ready_setAgent s a _ _ hc hr hcmd rfl
  · exact step_of_ready_setAgent s a _ _ hc hr hcmd rfl

/-! ## One byte of the adapter -/

theorem loadByte_mem (addr : Word) (got : List Byte) (d : VarId) (a : Agent) (s : State) :
    (loadByte addr got d a s).mem = s.mem := by
  unfold loadByte
  split
  · rfl
  · split <;> rfl

theorem storeByte_cons_mem (addr : Word) (b : Byte) (rest : List Byte) (a : Agent) (s : State) :
    (storeByte addr (b :: rest) a s).mem = s.mem.write (cellAt addr 0) b := by
  cases rest <;> rfl

theorem serve_mem (q : Request) (reply : Reply) (a : Agent) (s t : State) (h : serve q reply a s = .next t) :
    t.mem = s.mem := by
  obtain ⟨p, cv, n, -, -, -, -, hserve⟩ := serve_next q reply a s
  rw [hserve] at h
  cases h
  exact State.pass_mem _

/-- Settles O44, by the phase of the acting agent. -/
theorem adapterChangesOneByteAtATime : Obligations.AdapterChangesOneByteAtATime := by
  intro s t a hm hc h
  refine ⟨fun addr got d hp x => ?_, fun q reply hp x => ?_, fun addr b rest hp x => ?_⟩
  · rw [step_of_loading s a addr got d hc hp] at h
    cases h
    rw [State.pass_mem, loadByte_mem]
  · rw [step_of_presenting s a q reply hc hp] at h
    rw [serve_mem q reply a s t h]
  · rw [step_of_storing s a addr _ hc hp] at h
    cases h
    rw [State.pass_mem, storeByte_cons_mem]
    exact Memory.read_write _ hm _ x b

/-! ## Runs of a single agent -/

/-- The state with `a` as its only agent: one agent is always the one that moves next (log 11). -/
def State.alone (s : State) (a : Agent) : State := { s with agents := [a], turn := 0 }

theorem State.eq_alone (s : State) (a : Agent) (hagents : s.agents = [a]) (hturn : s.turn = 0) :
    s = s.alone a := by
  rw [State.alone, ← hagents, ← hturn]

theorem State.alone_current (s : State) (a : Agent) : (s.alone a).current = some a := rfl

/-- The first step of a run of `n + 1` steps. -/
theorem run_succ_iff (M : Host.Core) (n : Nat) (s u : M.State) :
    M.run (n + 1) s = .next u ↔ ∃ t, M.step s = .next t ∧ M.run n t = .next u := by
  rw [Host.Core.run]
  cases M.step s with
  | next t => simp
  | fault r => simp
  | refused r => simp

/-- A run of `m` steps and then one of `n` steps is a run of `m + n`. -/
theorem run_add (M : Host.Core) (m n : Nat) (s t u : M.State) (hst : M.run m s = .next t)
    (htu : M.run n t = .next u) : M.run (m + n) s = .next u := by
  induction m generalizing s with
  | zero =>
    cases hst
    rwa [Nat.zero_add]
  | succ k ih =>
    obtain ⟨v, hsv, hvt⟩ := (run_succ_iff M k s t).mp hst
    rw [Nat.succ_add]
    exact (run_succ_iff M (k + n) s u).mpr ⟨v, hsv, ih v hvt⟩

theorem run_one {s t : State} (h : step s = .next t) : core.run 1 s = .next t :=
  (run_succ_iff core 0 s t).mpr ⟨t, h, rfl⟩

/-! ## A single agent's AS_STRING -/

/-- Writing the lanes that are left writes them as bytes from the adapter's address, one a step (R51, log 9). -/
theorem run_storing_alone (lanes : List Byte) (hne : lanes ≠ []) (s : State) (a : Agent) (addr : Word)
    (hp : a.phase = .storing addr lanes) :
    core.run lanes.length (s.alone a) =
      .next ({ s with mem := s.mem.writeBytes addr lanes }.alone a.advance) := by
  induction lanes generalizing s a addr with
  | nil => exact absurd rfl hne
  | cons b rest ih =>
    have hstep := step_of_storing _ a addr _ (s.alone_current a) hp
    cases rest with
    | nil => exact run_one hstep
    | cons c rest =>
      refine (run_succ_iff core (rest.length + 1) _ _).mpr ⟨_, hstep, ?_⟩
      exact ih (by simp) { s with mem := s.mem.write (cellAt addr 0) b }
        { a with phase := .storing (addr + 1#64) (c :: rest) } (addr + 1#64) rfl

theorem length_lanesOut (o : Payload) : (lanesOut o).length = 6 := rfl

theorem getElem_lanesOut (o : Payload) (i : Nat) (hi : i < 6) : (lanesOut o)[i] = laneOut o i := by
  interval_cases i <;> rfl

/-- Bit j of UNPACK5 is the word's below bit 40 and zero above (R54). -/
theorem unpack5_getLsbD (w : Word) (j : Nat) : (unpack5 w).getLsbD j = (decide (j < 40) && w.getLsbD j) := by
  simp only [unpack5, BitVec.getLsbD_cast, BitVec.getLsbD_append, BitVec.getLsbD_extractLsb']
  by_cases hj : j < 40 <;> simp [hj]

/-- Lanes 0 to 4 of UNPACK5 are the five low bytes of the word (R54). -/
theorem laneOut_unpack5 (w : Word) (i : Nat) (hi : i < 5) : laneOut (unpack5 w) i = w.extractLsb' (8 * i) 8 := by
  refine BitVec.eq_of_getLsbD_eq fun j hj => ?_
  simp [laneOut, unpack5_getLsbD, show 8 * i + j < 40 by omega]

/-- Lane 5 of UNPACK5 is the terminator (R54). -/
theorem laneOut_unpack5_terminator (w : Word) : laneOut (unpack5 w) 5 = 0#8 := by
  refine BitVec.eq_of_getLsbD_eq fun j _ => ?_
  simp [laneOut, unpack5_getLsbD]

theorem decode_asStr (q : Request) (hop : q.op = 0xD#4) (hrsv : q.rsv = 0#17) : decode q = .asStr q.a := by
  simp [decode, Request.illegal, hop, hrsv]

/-- AS_STRING of a String word keeps its guard, and responds with UNPACK5 (R136). -/
theorem exec_asStr_of_tag (w : Word) (s : State) (htag : tagOf w = 0xFFFD#16) :
    exec (.asStr w) s = .next { s with resp := some ⟨0#64, unpack5 w, .ok⟩ } :=
  guarded_of_eq _ _ _ _ s (classifyWord_of_tag w .string _ rfl htag)

/-- One agent presents a request that `exec` answers with the response `p` and nothing else: it is delivered. -/
theorem step_presenting_alone (s : State) (a : Agent) (q : Request) (reply : Reply) (p : Response)
    (hp : a.phase = .presenting q reply)
    (hexec : exec (decode q) (s.alone a) = .next { s.alone a with resp := some p }) :
    step (s.alone a) = .next ({ s with resp := some p }.alone (takeResponse p a reply)) := by
  rw [step_of_presenting _ a q reply (s.alone_current a) hp, serve, hexec]
  rfl

/-- Settles O46: one step serves the request, and six write its lanes. -/
theorem adapterWritesTheSixByteBuffer : Obligations.AdapterWritesTheSixByteBuffer := by
  intro s a q addr hm hagents hturn hp hop hrsv htag
  have hexec : exec (decode q) (s.alone a) =
      .next { s.alone a with resp := some ⟨0#64, unpack5 q.a, .ok⟩ } := by
    rw [decode_asStr q hop hrsv]
    exact exec_asStr_of_tag q.a _ htag
  have hrun := run_add core 1 6 _ _ _ (run_one (step_presenting_alone s a q _ _ hp hexec))
    (run_storing_alone (lanesOut (unpack5 q.a)) (List.cons_ne_nil _ _) _ _ addr rfl)
  rw [← s.eq_alone a hagents hturn] at hrun
  have hbyte : ∀ i < 6, (s.mem.writeBytes addr (lanesOut (unpack5 q.a))).read (cellAt addr i) =
      laneOut (unpack5 q.a) i := by
    intro i hi
    rw [← getElem_lanesOut _ i hi]
    exact Memory.read_writeBytes_cellAt (lanesOut _) _ hm _ (by simp [length_lanesOut]) i hi
  refine ⟨_, hrun, rfl, rfl, fun i hi => ?_, ?_, fun x hx => ?_⟩
  · exact (hbyte i (by omega)).trans (laneOut_unpack5 q.a i hi)
  · exact (hbyte 5 (by omega)).trans (laneOut_unpack5_terminator q.a)
  · exact Memory.read_writeBytes_of_ne _ _ hm _ _ hx

/-! ## A single agent's ENC_STRING -/

/-- The text in memory from its byte `i` on: at most `k` bytes, up to the first zero byte (R51). -/
def Memory.textFrom (m : Memory) (addr : Word) (i k : Nat) : List Byte :=
  ((List.range' i k).map fun j => m.read (cellAt addr j)).takeWhile (· != 0#8)

theorem Memory.textFrom_of_zero (m : Memory) (addr : Word) (i k : Nat) (h : m.read (cellAt addr i) = 0#8) :
    m.textFrom addr i (k + 1) = [] := by
  simp [Memory.textFrom, List.range'_succ, h]

theorem Memory.textFrom_of_ne_zero (m : Memory) (addr : Word) (i k : Nat) (h : m.read (cellAt addr i) ≠ 0#8) :
    m.textFrom addr i (k + 1) = m.read (cellAt addr i) :: m.textFrom addr (i + 1) k := by
  simp [Memory.textFrom, List.range'_succ, h]

theorem Memory.length_textFrom_le (m : Memory) (addr : Word) (i k : Nat) : (m.textFrom addr i k).length ≤ k := by
  simpa [Memory.textFrom] using (List.takeWhile_sublist (p := (· != 0#8))
    (l := (List.range' i k).map fun j => m.read (cellAt addr j))).length_le

theorem Memory.takeWhile_textFrom (m : Memory) (addr : Word) (i k : Nat) :
    (m.textFrom addr i k).takeWhile (· != 0#8) = m.textFrom addr i k :=
  List.takeWhile_idem

/-- The agent `a` as it presents the text `got` as ENC_STRING; the lanes above it are the draw `n` (log 10). -/
def Agent.presentText (a : Agent) (got : List Byte) (n : Nat) (d : VarId) : Agent :=
  { a with phase := .presenting (stringRequest got n) (.toVar d) }

/-- A zero byte ends the text (R51). -/
theorem loadByte_of_zero (addr : Word) (got : List Byte) (d : VarId) (a : Agent) (s : State)
    (hzero : s.mem.read (cellAt addr got.length) = 0#8) : loadByte addr got d a s = presentString got d a s :=
  if_pos hzero

/-- The fifth byte fills the lanes (R51). -/
theorem loadByte_of_last (addr : Word) (got : List Byte) (d : VarId) (a : Agent) (s : State)
    (hne : s.mem.read (cellAt addr got.length) ≠ 0#8) (hlen : 4 ≤ got.length) :
    loadByte addr got d a s = presentString (got ++ [s.mem.read (cellAt addr got.length)]) d a s :=
  (if_neg hne).trans (if_pos hlen)

/-- After any other byte the adapter reads on (R51). -/
theorem loadByte_of_more (addr : Word) (got : List Byte) (d : VarId) (a : Agent) (s : State)
    (hne : s.mem.read (cellAt addr got.length) ≠ 0#8) (hlen : got.length < 4) :
    loadByte addr got d a s =
      s.setAgent { a with phase := .loading addr (got ++ [s.mem.read (cellAt addr got.length)]) d } :=
  (if_neg hne).trans (if_neg (by omega))

/-- The single agent's adapter reads a zero byte and presents the bytes read before it. -/
theorem step_loading_alone_of_zero (s : State) (a : Agent) (addr : Word) (got : List Byte) (d : VarId)
    (hp : a.phase = .loading addr got d) (hzero : s.mem.read (cellAt addr got.length) = 0#8) :
    step (s.alone a) = .next ({ s with draws := s.draws + 1 }.alone (a.presentText got s.draws d)) := by
  rw [step_of_loading _ a addr got d (s.alone_current a) hp, loadByte_of_zero addr got d a (s.alone a) hzero]
  rfl

/-- Reading lanes ends with a request presented: its text is the bytes read before and those in memory up to the first
zero byte, each read in one step (R51, log 9). -/
theorem run_loading_alone (k : Nat) (s : State) (a : Agent) (addr : Word) (got : List Byte) (d : VarId)
    (hk : got.length + k = 4) (hp : a.phase = .loading addr got d) :
    ∃ n ≤ k + 1, core.run n (s.alone a) =
      .next ({ s with draws := s.draws + 1 }.alone
        (a.presentText (got ++ s.mem.textFrom addr got.length (k + 1)) s.draws d)) := by
  induction k generalizing a got with
  | zero =>
    by_cases hzero : s.mem.read (cellAt addr got.length) = 0#8
    · rw [Memory.textFrom_of_zero _ _ _ _ hzero, List.append_nil]
      exact ⟨1, by omega, run_one (step_loading_alone_of_zero s a addr got d hp hzero)⟩
    · have hstep := step_of_loading _ a addr got d (s.alone_current a) hp
      rw [loadByte_of_last addr got d a (s.alone a) hzero (by omega)] at hstep
      rw [Memory.textFrom_of_ne_zero _ _ _ _ hzero]
      exact ⟨1, by omega, run_one hstep⟩
  | succ k ih =>
    by_cases hzero : s.mem.read (cellAt addr got.length) = 0#8
    · rw [Memory.textFrom_of_zero _ _ _ _ hzero, List.append_nil]
      exact ⟨1, by omega, run_one (step_loading_alone_of_zero s a addr got d hp hzero)⟩
    · have hstep := step_of_loading _ a addr got d (s.alone_current a) hp
      rw [loadByte_of_more addr got d a (s.alone a) hzero (by omega)] at hstep
      obtain ⟨n, hn, hrun⟩ := ih
        { a with phase := .loading addr (got ++ [s.mem.read (cellAt addr got.length)]) d }
        (got ++ [s.mem.read (cellAt addr got.length)])
        (by rw [List.length_append, List.length_singleton]; omega) rfl
      rw [List.length_append, List.length_singleton, List.append_assoc, List.singleton_append,
        ← Memory.textFrom_of_ne_zero _ _ _ _ hzero] at hrun
      exact ⟨n + 1, by omega, (run_succ_iff core n _ _).mpr ⟨_, hstep, hrun⟩⟩

/-- The request that presents a text of at most five non-zero bytes carries that text, whatever its free lanes. -/
theorem textOf_stringRequest (got : List Byte) (n : Nat) (hlen : got.length ≤ 5)
    (hne : got.takeWhile (· != 0#8) = got) :
    textOf (stringRequest got n).sIn (stringRequest got n).sAvail = got := by
  have hcount : laneCount (stringRequest got n).sAvail = got.length := by
    simp only [laneCount, stringRequest, BitVec.toNat_ofNat]
    omega
  have htake : (stringRequest got n).sIn.toList.take got.length = got := by
    refine List.ext_getElem (by simp [hlen]) fun i hi hi' => ?_
    have hi5 : i < 5 := by omega
    interval_cases i <;> simp [stringRequest, hi']
  rw [textOf, hcount, htake, hne]

/-- ENC_STRING of the request that presents a text: the String word of that text (R107). -/
theorem exec_stringRequest (got : List Byte) (n : Nat) (s : State) (hlen : got.length ≤ 5)
    (hne : got.takeWhile (· != 0#8) = got) :
    exec (decode (stringRequest got n)) s =
      .next { s with resp := some ⟨taggedWord 0xFFFD#16 (placeBytes got), 0#48, .ok⟩ } := by
  conv_rhs => rw [← textOf_stringRequest got n hlen hne]
  rfl

/-- Below the tag the bytes of a tagged word are those of its payload (R70). -/
theorem taggedWord_byte (t : BitVec 16) (p : Payload) (i : Nat) (hi : i < 6) :
    (taggedWord t p).extractLsb' (8 * i) 8 = p.extractLsb' (8 * i) 8 := by
  refine BitVec.eq_of_getLsbD_eq fun j hj => ?_
  simp [taggedWord_getLsbD, show 8 * i + j < 48 by omega]

/-- Settles O45: at most five steps read the text, and one serves the request that presents it. -/
theorem adapterEncodesTheTextInMemory : Obligations.AdapterEncodesTheTextInMemory := by
  intro s a addr d hagents hturn hp
  obtain ⟨n, hn, hload⟩ := run_loading_alone 4 s a addr [] d rfl hp
  have hserve := step_presenting_alone { s with draws := s.draws + 1 }
    (a.presentText (s.mem.textFrom addr 0 5) s.draws d) _ _ _ rfl
    (exec_stringRequest (s.mem.textFrom addr 0 5) s.draws _ (s.mem.length_textFrom_le addr 0 5)
      (s.mem.takeWhile_textFrom addr 0 5))
  have hrun := run_add core n 1 _ _ _ hload (run_one hserve)
  rw [← s.eq_alone a hagents hturn] at hrun
  refine ⟨n + 1, _, _, by omega, hrun, rfl, rfl, rfl, tagOf_taggedWord _ _, fun i hi => ?_⟩
  rw [taggedWord_byte _ _ i hi, placeBytes_byte _ i hi, List.range_eq_range']
  rfl

end Sys2Proof.Machine

/-! # Proofs about the encoding: the partition of the words, the packed request and response, the opcode table, the
assembler (30_encoding.md) -/

namespace Sys2Proof

open Machine

/-! ## Decoding what the encoder packs -/

/-- Settles O28, from the round trip of each constructor. -/
theorem decodeOfEncodeIsTheInstruction : Obligations.DecodeOfEncodeIsTheInstruction := by
  intro i hwf
  cases i with
  | encDouble a => exact Laws.RoundTrip.encDouble a hwf
  | encNull => exact Laws.RoundTrip.encNull hwf
  | encUndef => exact Laws.RoundTrip.encUndef hwf
  | encEmpty => exact Laws.RoundTrip.encEmpty hwf
  | encBool a => exact Laws.RoundTrip.encBool a hwf
  | encInt a => exact Laws.RoundTrip.encInt a hwf
  | encStr n l => exact Laws.RoundTrip.encStr n l hwf
  | encCustom a => exact Laws.RoundTrip.encCustom a hwf
  | encRaw a => exact Laws.RoundTrip.encRaw a hwf
  | classify a => exact Laws.RoundTrip.classify a hwf
  | asBool a => exact Laws.RoundTrip.asBool a hwf
  | asInt a => exact Laws.RoundTrip.asInt a hwf
  | asCustom a => exact Laws.RoundTrip.asCustom a hwf
  | asStr a => exact Laws.RoundTrip.asStr a hwf
  | asRaw a => exact Laws.RoundTrip.asRaw a hwf
  | reserved op rsv => exact Laws.RoundTrip.reserved op rsv hwf

/-- Only the reserved row can be ill-formed (R83). -/
theorem Instr.wf_of_ne_reserved (i : Instr) (h : ∀ op rsv, i ≠ .reserved op rsv) : i.wf = true := by
  cases i with
  | reserved op rsv => exact absurd rfl (h op rsv)
  | _ => rfl

theorem decode_wf (q : Request) : (decode q).wf = true := by
  cases hill : q.illegal with
  | true =>
    rw [decode_of_illegal q hill]
    exact hill
  | false => exact (decode q).wf_of_ne_reserved (decode_of_legal q hill).1

/-- Settles O29: the decoder's instruction is well-formed, so O28 is about it. -/
theorem decodedInstructionIsWellFormedAndStable : Obligations.DecodedInstructionIsWellFormedAndStable :=
  fun _ => ⟨decode_wf _, decodeOfEncodeIsTheInstruction _ (decode_wf _)⟩

/-! ## The packed request -/

/-- The bits 7:4, 15:11 and 63:56 of REQ_LO as `rsv` carries them (R80, log 13). -/
theorem rsvOfLo_low (lo : Word) : (rsvOfLo lo).extractLsb' 0 4 = lo.extractLsb' 4 4 := by
  rw [rsvOfLo, BitVec.extractLsb'_cast, BitVec.extractLsb'_append_eq_right]

theorem rsvOfLo_mid (lo : Word) : (rsvOfLo lo).extractLsb' 4 5 = lo.extractLsb' 11 5 := by
  rw [rsvOfLo, BitVec.extractLsb'_cast, BitVec.extractLsb'_append_eq_of_le (by decide),
    BitVec.extractLsb'_append_eq_right]

theorem rsvOfLo_high (lo : Word) : (rsvOfLo lo).extractLsb' 9 8 = lo.extractLsb' 56 8 := by
  rw [rsvOfLo, BitVec.extractLsb'_cast, BitVec.extractLsb'_append_eq_of_le (by decide),
    BitVec.extractLsb'_append_eq_left]

/-- The five lanes side by side are REQ_LO bits 55:16 (R80). -/
theorem bits_sIn_unpack (hi lo : Word) : Lanes.bits (Request.unpack hi lo).sIn = lo.extractLsb' 16 40 := by
  change (laneOfLo lo 4 ++ laneOfLo lo 3 ++ laneOfLo lo 2 ++ laneOfLo lo 1 ++ laneOfLo lo 0).cast rfl = _
  simp only [laneOfLo]
  iterate 4 rw [BitVec.extractLsb'_append_extractLsb'_eq_extractLsb' (by decide)]
  rfl

/-- Packing what REQ_LO carries gives REQ_LO back: its fields leave out no bit (R80). -/
theorem Request.lo_unpack (hi lo : Word) : (Request.unpack hi lo).lo = lo := by
  rw [Request.lo, bits_sIn_unpack]
  simp only [Request.unpack, rsvOfLo_low, rsvOfLo_mid, rsvOfLo_high]
  iterate 5 rw [BitVec.extractLsb'_append_extractLsb'_eq_extractLsb' (by decide)]
  exact BitVec.extractLsb'_eq_self

/-- The two halves of packed bits carry a request whose packed bits they are. -/
theorem Request.bits_unpack (hi lo : Word) : (Request.unpack hi lo).bits = (hi ++ lo).cast rfl := by
  rw [Request.bits, Request.lo_unpack]
  rfl

/-- Settles O27: unpacking reads every field where packing puts it, and the fields leave out no bit. -/
theorem packedRequestAndBundleAgree : Obligations.PackedRequestAndBundleAgree := by
  refine ⟨fun q => ?_, fun w => ?_⟩
  · rw [Request.ofBits, Request.hi_bits, Request.lo_bits]
    exact Request.unpack_lo q
  · rw [Request.ofBits, Request.bits_unpack, BitVec.extractLsb'_append_extractLsb'_eq_extractLsb' (by decide)]
    exact BitVec.extractLsb'_eq_self

/-! ## The opcode table -/

/-- Two REQ_LO are the same exactly when they carry the same fields. -/
theorem eq_iff_unpack_eq (x y : Word) : x = y ↔ Request.unpack 0#64 x = Request.unpack 0#64 y := by
  refine ⟨fun h => by rw [h], fun h => ?_⟩
  rw [← Request.lo_unpack 0#64 x, h, Request.lo_unpack]

/-- The mask of a legal row keeps op and the reserved bits and clears the other fields (R84). -/
theorem unpack_and_legalMask (lo : Word) : Request.unpack 0#64 (lo &&& 0xFF0000000000F8FF#64) =
    { Request.word (lo.extractLsb' 0 4) 0#64 with rsv := rsvOfLo lo } := by
  have hop : (0xFF0000000000F8FF#64 : Word).extractLsb' 0 4 = BitVec.allOnes 4 := by decide
  have havail : (0xFF0000000000F8FF#64 : Word).extractLsb' 8 3 = 0#3 := by decide
  have hlane : ∀ i < 5, (0xFF0000000000F8FF#64 : Word).extractLsb' (16 + 8 * i) 8 = 0#8 := by decide
  have hlow : (0xFF0000000000F8FF#64 : Word).extractLsb' 4 4 = BitVec.allOnes 4 := by decide
  have hmid : (0xFF0000000000F8FF#64 : Word).extractLsb' 11 5 = BitVec.allOnes 5 := by decide
  have hhigh : (0xFF0000000000F8FF#64 : Word).extractLsb' 56 8 = BitVec.allOnes 8 := by decide
  simp only [Request.unpack, Request.word, noLanes, laneOfLo, rsvOfLo, BitVec.extractLsb'_and, hop, havail,
    hlane 0 (by decide), hlane 1 (by decide), hlane 2 (by decide), hlane 3 (by decide), hlane 4 (by decide),
    hlow, hmid, hhigh, BitVec.and_allOnes, BitVec.and_zero]

/-- The pattern of a legal row is the REQ_LO of a request with only that op (R82). -/
theorem unpack_op : ∀ op : BitVec 4, Request.unpack 0#64 (op.setWidth 64) = Request.word op 0#64 := by decide

/-- A REQ_LO fits the row of a legal op exactly when it carries that op and no reserved bit (R82, R83). -/
theorem TableRow.holds_legal_iff (op : BitVec 4) (hi lo : Word) : (TableRow.legal op).holds lo = true ↔
    (Request.unpack hi lo).op = op ∧ (Request.unpack hi lo).rsv = 0#17 := by
  rw [TableRow.holds, beq_iff_eq, TableRow.legal, eq_iff_unpack_eq, unpack_and_legalMask, unpack_op]
  simp [Request.word, Request.unpack]

/-- The last row of the table (R83). -/
def TableRow.reserved : TableRow := { op := 0xF#4, pattern := 0xF#64, mask := 0xF#64 }

/-- A REQ_LO fits the reserved row exactly when its op is 0xF (R83). -/
theorem TableRow.holds_reserved_iff (hi lo : Word) :
    TableRow.reserved.holds lo = true ↔ (Request.unpack hi lo).op = 0xF#4 := by
  simp only [TableRow.holds, TableRow.reserved, Request.unpack, beq_iff_eq, ← BitVec.toNat_inj, BitVec.toNat_and,
    BitVec.extractLsb'_toNat]
  change lo.toNat &&& (2 ^ 4 - 1) = 15 ↔ lo.toNat % 2 ^ 4 = 15
  rw [Nat.and_two_pow_sub_one_eq_mod]

/-- The rows of the table: those of the fifteen legal ops, and the reserved one. -/
theorem opcodeTable_rows : ∀ r ∈ opcodeTable,
    (r.op ≠ 0xF#4 ∧ r = .legal r.op) ∨ (r.op = 0xF#4 ∧ r = .reserved) := by
  decide

theorem op_of_holds (hi lo : Word) (r : TableRow) (hr : r ∈ opcodeTable) (h : r.holds lo = true) :
    (Request.unpack hi lo).op = r.op := by
  rcases opcodeTable_rows r hr with ⟨-, hrow⟩ | ⟨hop, hrow⟩
  · rw [hrow, TableRow.holds_legal_iff _ hi] at h
    exact h.1
  · rw [hrow, TableRow.holds_reserved_iff hi] at h
    rw [h, hop]

/-- A row of the table is known by its op. -/
theorem opcodeTable_ext : ∀ r ∈ opcodeTable, ∀ r' ∈ opcodeTable, r.op = r'.op → r = r' := by decide

theorem Request.illegal_eq_false_iff (q : Request) : q.illegal = false ↔ q.op ≠ 0xF#4 ∧ q.rsv = 0#17 := by
  simp [Request.illegal]

/-- The decoder reads a legal instruction of an op other than 0xF exactly from a request with that op and no reserved
bit set. -/
theorem decode_legal_iff (q : Request) (op : BitVec 4) (hop : op ≠ 0xF#4) :
    (q.op = op ∧ q.rsv = 0#17) ↔ (decode q).op = op ∧ ∀ op' rsv, decode q ≠ .reserved op' rsv := by
  cases hill : q.illegal with
  | true =>
    rw [decode_of_illegal q hill]
    refine ⟨fun ⟨h, hrsv⟩ => ?_, fun h => absurd rfl (h.2 _ _)⟩
    exact absurd hrsv ((q.illegal_iff.mp hill).resolve_left (h ▸ hop))
  | false =>
    obtain ⟨hne, hdec⟩ := decode_of_legal q hill
    simp [hdec, (q.illegal_eq_false_iff.mp hill).2, hne]

/-- The decoder reads the reserved instruction with op 0xF exactly from a request with that op (R83). -/
theorem decode_reserved_iff (q : Request) : q.op = 0xF#4 ↔ ∃ rsv, decode q = .reserved 0xF#4 rsv := by
  cases hill : q.illegal with
  | true => simp [decode_of_illegal q hill]
  | false => simp [(q.illegal_eq_false_iff.mp hill).1, (decode_of_legal q hill).1]

/-- Settles O30: a row that fits has the op of REQ_LO, and each kind of row says what the decoder's check says. -/
theorem opcodeTableAndDecoderAgree : Obligations.OpcodeTableAndDecoderAgree := by
  intro hi lo
  refine ⟨fun r hr r' hr' h h' => ?_, fun r hr hop => ?_, fun r hr hop => ?_⟩
  · exact opcodeTable_ext r hr r' hr' (by rw [← op_of_holds hi lo r hr h, op_of_holds hi lo r' hr' h'])
  · obtain ⟨-, hrow⟩ := (opcodeTable_rows r hr).resolve_right fun h => hop h.1
    rw [← decode_legal_iff _ _ hop, ← TableRow.holds_legal_iff, ← hrow]
  · obtain ⟨-, hrow⟩ := (opcodeTable_rows r hr).resolve_left fun h => h.1 hop
    rw [← decode_reserved_iff, ← TableRow.holds_reserved_iff, ← hrow]

end Sys2Proof

namespace Sys2Proof.Machine

/-! ## The tag-space partition -/

/-- R72's table: the first and the last word of each row, its variant and its code. -/
def partitionTable : List (Nat × Nat × Variant × Nat) :=
  [(0, 0xFFF8FFFFFFFFFFFF, .double, 0),
   (0xFFF9000000000000, 0xFFF9FFFFFFFFFFFF, .null, 1),
   (0xFFFA000000000000, 0xFFFAFFFFFFFFFFFF, .undefined, 2),
   (0xFFFB000000000000, 0xFFFBFFFFFFFFFFFF, .bool, 3),
   (0xFFFC000000000000, 0xFFFCFFFFFFFFFFFF, .integer, 4),
   (0xFFFD000000000000, 0xFFFDFFFFFFFFFFFF, .string, 5),
   (0xFFFE000000000000, 0xFFFEFFFFFFFFFFFF, .custom, 6),
   (0xFFFF000000000000, 0xFFFFFFFFFFFFFFFF, .empty, 7)]

/-- A row of the table is known by its variant. -/
theorem partitionTable_ext : ∀ row ∈ partitionTable, ∀ row' ∈ partitionTable,
    row.2.2.1 = row'.2.2.1 → row = row' := by
  decide

theorem partitionTable_code : ∀ row ∈ partitionTable, row.2.2.1.code.toNat = row.2.2.2 := by decide

/-- A row's range begins and ends with whole tags. -/
theorem partitionTable_range : ∀ row ∈ partitionTable,
    row.1 = row.1 / 2 ^ 48 * 2 ^ 48 ∧ row.2.1 = row.2.1 / 2 ^ 48 * 2 ^ 48 + (2 ^ 48 - 1) := by
  decide

/-- The row of the variant that CLASSIFY gives a word holds the word's tag. -/
theorem exists_row_of_word (w : Word) : ∃ row ∈ partitionTable, classifyWord w = row.2.2.1 ∧
    row.1 / 2 ^ 48 ≤ (tagOf w).toNat ∧ (tagOf w).toNat ≤ row.2.1 / 2 ^ 48 := by
  rcases classifyWord_cases w with ⟨htag, hv⟩ | ⟨htag, hv⟩ | ⟨htag, hv⟩ | ⟨htag, hv⟩ | ⟨htag, hv⟩ |
    ⟨htag, hv⟩ | ⟨htag, hv⟩ | ⟨htag, hv⟩
  · exact ⟨(0, 0xFFF8FFFFFFFFFFFF, .double, 0), by decide, hv, Nat.zero_le _, htag⟩
  all_goals
    rw [htag, hv]
    decide

/-- A word whose tag lies within a row's tag bounds lies in the row's range. -/
theorem mem_range_of_tag (w : Word) (row : Nat × Nat × Variant × Nat) (hrow : row ∈ partitionTable)
    (hlo : row.1 / 2 ^ 48 ≤ (tagOf w).toNat) (hhi : (tagOf w).toNat ≤ row.2.1 / 2 ^ 48) :
    row.1 ≤ w.toNat ∧ w.toNat ≤ row.2.1 := by
  obtain ⟨hfirst, hlast⟩ := partitionTable_range row hrow
  rw [tagOf_toNat] at hlo hhi
  omega

/-- Settles O9: the row is the one of the word's variant. -/
theorem everyWordFallsInExactlyOneRow : Obligations.EveryWordFallsInExactlyOneRow := by
  intro w
  obtain ⟨row, hrow, hv, hlo, hhi⟩ := exists_row_of_word w
  obtain ⟨hfirst, hlast⟩ := mem_range_of_tag w row hrow hlo hhi
  refine ⟨row, ⟨hrow, hfirst, hlast, hv, ?_, hlo, hhi⟩, ?_⟩
  · rw [hv]
    exact partitionTable_code row hrow
  · rintro row' ⟨hrow', -, -, hv', -⟩
    exact partitionTable_ext row' hrow' row hrow (hv'.symm.trans hv)

/-! ## The fields an operation reads -/

/-- Every op but ENC_STRING reads at most `a` (R82). -/
theorem decode_congr_of_a (q q' : Request) (hop : q.op = q'.op) (ha : q.a = q'.a) (hrsv : q.rsv = q'.rsv)
    (hstr : q.op ≠ 0x6#4) : decode q = decode q' := by
  obtain ⟨op, a, n, l, rsv⟩ := q
  obtain ⟨_, _, n', l', _⟩ := q'
  cases hop
  cases ha
  cases hrsv
  cases hill : Request.illegal ⟨op, a, n, l, rsv⟩ with
  | true => rw [decode_of_illegal _ hill, decode_of_illegal ⟨op, a, n', l', rsv⟩ hill]
  | false =>
    have hne : op.toNat ≠ 6 := fun h => hstr (BitVec.eq_of_toNat_eq h)
    rw [decode, decode, if_neg (by simp [hill]), if_neg (by simpa [Request.illegal] using hill)]
    dsimp only
    split
    case h_7 h => exact absurd h hne
    all_goals rfl

theorem decode_encNull (q : Request) (hop : q.op = 0x1#4) (hrsv : q.rsv = 0#17) : decode q = .encNull := by
  simp [decode, Request.illegal, hop, hrsv]

theorem decode_encUndef (q : Request) (hop : q.op = 0x2#4) (hrsv : q.rsv = 0#17) : decode q = .encUndef := by
  simp [decode, Request.illegal, hop, hrsv]

theorem decode_encEmpty (q : Request) (hop : q.op = 0x3#4) (hrsv : q.rsv = 0#17) : decode q = .encEmpty := by
  simp [decode, Request.illegal, hop, hrsv]

theorem decode_encStr (q : Request) (hop : q.op = 0x6#4) (hrsv : q.rsv = 0#17) :
    decode q = .encStr q.sAvail q.sIn := by
  simp [decode, Request.illegal, hop, hrsv]

/-- ENC_STRING reads no lane at or above min(s_avail, 5) (R53). -/
theorem textOf_congr (l l' : Lanes) (n : BitVec 3)
    (h : ∀ i < min n.toNat 5, l.toList.getD i 0#8 = l'.toList.getD i 0#8) : textOf l n = textOf l' n := by
  have htake : l.toList.take (laneCount n) = l'.toList.take (laneCount n) := by
    refine List.ext_getElem (by simp) fun i hi _ => ?_
    have hlt : i < min n.toNat 5 := by simpa [laneCount] using hi
    simpa [show i < 5 by omega] using h i hlt
  rw [textOf, textOf, htake]

theorem exec_encStr_congr (l l' : Lanes) (n : BitVec 3) (s : State)
    (h : ∀ i < min n.toNat 5, l.toList.getD i 0#8 = l'.toList.getD i 0#8) :
    exec (.encStr n l) s = exec (.encStr n l') s := by
  simp only [exec, execEncStr, pack5, textOf_congr l l' n h]

/-- Settles O21: three ops read no field, ENC_STRING its lanes, every other op `a`. -/
theorem unusedFieldsHaveNoEffect : Obligations.UnusedFieldsHaveNoEffect := by
  refine ⟨fun q q' s hrsv hrsv' hop ha hstr => ?_, fun q s hrsv => ?_⟩
  · by_cases h1 : q.op = 0x1#4
    · rw [decode_encNull q h1 hrsv, decode_encNull q' (hop ▸ h1) hrsv']
    by_cases h2 : q.op = 0x2#4
    · rw [decode_encUndef q h2 hrsv, decode_encUndef q' (hop ▸ h2) hrsv']
    by_cases h3 : q.op = 0x3#4
    · rw [decode_encEmpty q h3 hrsv, decode_encEmpty q' (hop ▸ h3) hrsv']
    by_cases h6 : q.op = 0x6#4
    · obtain ⟨havail, hlanes⟩ := hstr h6
      rw [decode_encStr q h6 hrsv, decode_encStr q' (hop ▸ h6) hrsv', ← havail]
      exact exec_encStr_congr _ _ _ s hlanes
    · rw [decode_congr_of_a q q' hop (ha h1 h2 h3 h6) (hrsv.trans hrsv'.symm) h6]
  · rw [decode_of_illegal q (q.illegal_iff.mpr (.inr hrsv))]
    rfl

/-! ## The assembler -/

/-- Lanes that begin with a text of at most five non-zero bytes carry that text (R53). -/
theorem textOf_of_getElem (l : Lanes) (text : List Byte) (hlen : text.length ≤ 5)
    (hne : text.takeWhile (· != 0#8) = text) (hl : ∀ i (hi : i < text.length), l[i] = text[i]) :
    textOf l (BitVec.ofNat 3 text.length) = text := by
  have hcount : laneCount (BitVec.ofNat 3 text.length) = text.length := by
    rw [laneCount, BitVec.toNat_ofNat]
    omega
  have htake : l.toList.take text.length = text :=
    List.ext_getElem (by simp [hlen]) fun i hi hi' => by simpa using hl i hi'
  rw [textOf, hcount, htake, hne]

/-- The text that `enc.str "<text>"` keeps: the bytes before the first NUL, at most five (R88). -/
def keptText (text : List Byte) : List Byte := (text.takeWhile (· != 0#8)).take 5

theorem length_keptText_le (text : List Byte) : (keptText text).length ≤ 5 := List.length_take_le _ _

theorem takeWhile_keptText (text : List Byte) : (keptText text).takeWhile (· != 0#8) = keptText text :=
  List.takeWhile_eq_self_iff.mpr fun _ hb => List.mem_takeWhile_imp (p := (· != 0#8)) (List.mem_of_mem_take hb)

/-- ENC_STRING of an assembled text: the String word of the text it keeps (R88, R107). -/
theorem exec_encStrText (text : List Byte) (s : State) : exec (Asm.encStrText text) s =
    .next { s with resp := some ⟨taggedWord 0xFFFD#16 (placeBytes (keptText text)), 0#48, .ok⟩ } := by
  have htext : textOf #v[(keptText text).getD 0 0#8, (keptText text).getD 1 0#8, (keptText text).getD 2 0#8,
      (keptText text).getD 3 0#8, (keptText text).getD 4 0#8] (BitVec.ofNat 3 (keptText text).length) =
      keptText text := by
    refine textOf_of_getElem _ _ (length_keptText_le text) (takeWhile_keptText text) fun i hi => ?_
    have hi5 : i < 5 := hi.trans_le (length_keptText_le text)
    interval_cases i <;> simp [hi]
  conv_rhs => rw [← htext]
  rfl

/-- Settles O34: the kept text is placed byte by byte under the String tag. -/
theorem assembledTextIsStoredUpToFirstNul : Obligations.AssembledTextIsStoredUpToFirstNul := by
  intro text s
  refine ⟨_, exec_encStrText text s, tagOf_taggedWord _ _, fun i hi => ?_⟩
  rw [taggedWord_byte _ _ i hi, placeBytes_byte _ i hi]
  rfl

/-- Settles O35, by reading the four lines. -/
theorem sampleLinesAssembleAsTheSpecSays : Obligations.SampleLinesAssembleAsTheSpecSays :=
  ⟨by decide, by decide, by decide, by decide⟩

/-! ## Sample requests, and the packed response -/

/-- Settles O31, by decoding the five requests. -/
theorem sampleRequestsDecodeAsTheSpecSays : Obligations.SampleRequestsDecodeAsTheSpecSays :=
  ⟨by decide, by decide, by decide, by decide, by decide⟩

/-- `s_out` stands in RESP_LO bits 47:0, `status` in bits 49:48, and bits 63:50 are 0 (R86). -/
theorem Response.lo_sOut (p : Response) : p.lo.extractLsb' 0 48 = p.sOut := by
  rw [Response.lo, BitVec.extractLsb'_cast, BitVec.extractLsb'_append_eq_right]

theorem Response.lo_status (p : Response) : p.lo.extractLsb' 48 2 = p.status.code := by
  rw [Response.lo, BitVec.extractLsb'_cast, BitVec.extractLsb'_append_eq_of_le (by decide),
    BitVec.extractLsb'_append_eq_right]

theorem Response.lo_zero (p : Response) : p.lo.extractLsb' 50 14 = 0#14 := by
  rw [Response.lo, BitVec.extractLsb'_cast, BitVec.extractLsb'_append_eq_of_le (by decide),
    BitVec.extractLsb'_append_eq_left]

theorem Response.lo_lane (p : Response) (i : Nat) (hi : i < 6) :
    p.lo.extractLsb' (8 * i) 8 = p.sOut.extractLsb' (8 * i) 8 := by
  rw [Response.lo, BitVec.extractLsb'_cast, BitVec.extractLsb'_append_eq_of_add_le (by omega)]

/-- Settles O32, field by field. -/
theorem packedResponseHasTheFieldsOfTheBundle : Obligations.PackedResponseHasTheFieldsOfTheBundle :=
  fun p => ⟨rfl, p.lo_lane, p.lo_status, p.lo_zero, fun h => by rw [h]; rfl, fun h => by rw [h]; rfl⟩

end Sys2Proof.Machine

/-! # Proofs about the encoders: the word each one answers, what CLASSIFY says of it, and what an accessor recovers
(40_encoders.md) -/

namespace Sys2Proof.Machine

/-! ## ENC_STRING: the text of the lanes -/

/-- The text of a request is an initial part of its lanes (R53). -/
theorem textOf_prefix (l : Lanes) (n : BitVec 3) : textOf l n <+: l.toList :=
  (List.takeWhile_prefix _).trans (List.take_prefix _ _)

/-- Byte i of the text is lane i. -/
theorem textOf_getD_of_lt (l : Lanes) (n : BitVec 3) (i : Nat) (hi : i < (textOf l n).length) :
    (textOf l n).getD i 0#8 = l.toList.getD i 0#8 := by
  rw [List.getD_eq_getElem _ _ hi, List.getD_eq_getElem _ _ (hi.trans_le (textOf_prefix l n).length_le),
    (textOf_prefix l n).getElem hi]

/-- The text holds no zero byte. -/
theorem textOf_getD_ne_zero (l : Lanes) (n : BitVec 3) (i : Nat) (hi : i < (textOf l n).length) :
    (textOf l n).getD i 0#8 ≠ 0#8 := by
  rw [List.getD_eq_getElem _ _ hi]
  simpa using List.mem_takeWhile_imp (p := (· != 0#8)) (List.getElem_mem hi)

/-- A text shorter than min(s_avail, 5) was ended by a zero lane (R53). -/
theorem lane_after_textOf (l : Lanes) (n : BitVec 3) (h : (textOf l n).length < laneCount n) :
    l.toList.getD (textOf l n).length 0#8 = 0#8 := by
  have hcut : (textOf l n).length < (l.toList.take (laneCount n)).length := by simpa [laneCount_le] using h
  have hend : (l.toList.take (laneCount n)).findIdx (fun b => !(b != 0#8)) = (textOf l n).length := by
    rw [textOf, List.takeWhile_eq_take_findIdx_not, List.length_take_of_le List.findIdx_le_length]
  have hzero := ((List.findIdx_eq hcut).mp hend).1
  rw [List.getD_eq_getElem _ _ (hcut.trans_le (List.length_take_le' _ _))]
  simpa using hzero

/-- Settles O6: k is the length of the text of the lanes. -/
theorem encStrPlacesLanesUpToFirstZero : Obligations.EncStrPlacesLanesUpToFirstZero := by
  intro q s hop hrsv
  refine ⟨(textOf q.sIn q.sAvail).length, taggedWord 0xFFFD#16 (pack5 q.sIn q.sAvail), textOf_length_le _ _,
    fun i hi => ?_, lane_after_textOf _ _, tagOf_taggedWord _ _, fun i hi => ?_, ?_⟩
  · rw [← textOf_getD_of_lt _ _ i hi]
    exact textOf_getD_ne_zero _ _ i hi
  · rw [taggedWord_byte _ _ i hi, pack5, placeBytes_byte _ i hi]
    split
    case isTrue hlt => exact textOf_getD_of_lt _ _ i hlt
    case isFalse hge => exact List.getD_eq_default _ _ (Nat.le_of_not_lt hge)
  · rw [decode_encStr q hop hrsv]
    rfl

/-! ## Canonicalisation -/

/-- ENC_DOUBLE's function on numbers (R101). -/
theorem canonicalize_eq (w : Word) :
    canonicalize w = if w.toNat ≤ 0xFFF8FFFFFFFFFFFF then w else 0x7FF8000000000000#64 := by
  simp only [canonicalize, numOk_iff, canonNan]

theorem canonicalize_of_le (w : Word) (h : w.toNat ≤ 0xFFF8FFFFFFFFFFFF) : canonicalize w = w := by
  rw [canonicalize_eq, if_pos h]

theorem canonicalize_of_gt (w : Word) (h : 0xFFF8FFFFFFFFFFFF < w.toNat) :
    canonicalize w = 0x7FF8000000000000#64 := by
  rw [canonicalize_eq, if_neg h.not_ge]

/-- ENC_DOUBLE answers no word above the boundary. -/
theorem canonicalize_toNat_le (w : Word) : (canonicalize w).toNat ≤ 0xFFF8FFFFFFFFFFFF := by
  rw [canonicalize_eq]
  split
  case isTrue h => exact h
  case isFalse => decide

/-- Settles O23: a result of canonicalisation is one of the words it keeps. -/
theorem canonicalisationCollapsesForeignNansOnly : Obligations.CanonicalisationCollapsesForeignNansOnly := by
  refine ⟨fun x y hx hy => ⟨?_, canonicalize_of_gt x hx⟩, canonicalize_of_le, fun x => ⟨?_, canonicalize_toNat_le x⟩⟩
  · rw [canonicalize_of_gt x hx, canonicalize_of_gt y hy]
  · exact canonicalize_of_le _ (canonicalize_toNat_le x)

/-! ## CLASSIFY of an encoded value -/

theorem classifyWord_of_numOk (w : Word) (h : numOk w = true) : classifyWord w = .double := by
  rw [classifyWord, if_pos h]

/-- The all-ones word has the Empty tag (R104). -/
@[simp] theorem tagOf_emptyWord : tagOf emptyWord = 0xFFFF#16 := rfl

/-- CLASSIFY of the word an operation has answered. -/
theorem classify_of_respond (i : Instr) (s : State) (w : Word) (v : Variant) (hexec : exec i s = respond w 0#48 s)
    (hv : classifyWord w = v) :
    ∃ (t u : State) (p : Response), exec i s = .next t ∧ t.resp = some p ∧
      exec (.classify p.r) t = .next u ∧ u.resp = some ⟨v.code.setWidth 64, 0#48, .ok⟩ := by
  subst hv
  exact ⟨_, _, _, hexec, rfl, execClassify_eq w _, rfl⟩

/-- Settles O22: ENC_DOUBLE answers a word up to the boundary, every other encoder one of its variant's tag. -/
theorem classifyOfAnEncodedValueIsItsVariant : Obligations.ClassifyOfAnEncodedValueIsItsVariant := by
  rintro v i s (⟨rfl, a, rfl⟩ | ⟨rfl, rfl⟩ | ⟨rfl, rfl⟩ | ⟨rfl, rfl⟩ | ⟨rfl, a, rfl⟩ | ⟨rfl, a, rfl⟩ |
    ⟨rfl, n, l, rfl⟩ | ⟨rfl, a, rfl⟩)
  · exact classify_of_respond _ s _ _ rfl (classifyWord_of_numOk _ ((numOk_iff _).mpr (canonicalize_toNat_le a)))
  all_goals exact classify_of_respond _ s _ _ rfl (classifyWord_of_tag _ _ _ rfl (by simp))

/-! ## Accessors on encoded values -/

theorem classifyWord_taggedWord (v : Variant) (t : BitVec 16) (p : Payload) (hv : v.tag = some t) :
    classifyWord (taggedWord t p) = v :=
  classifyWord_of_tag _ v t hv (tagOf_taggedWord t p)

/-- A recovered payload is the operand modulo 2^48 (R112). -/
theorem zext64_low48_toNat (a : Word) : (zext64 (low48 a)).toNat = a.toNat % 2 ^ 48 :=
  (BitVec.toNat_setWidth_of_le (by decide)).trans (payloadOf_toNat a)

/-! A word of the accessor's own tag keeps the guard, and its payload is the result (R133 to R135). -/

theorem exec_asInt_taggedWord (p : Payload) (s : State) :
    exec (.asInt (taggedWord 0xFFFC#16 p)) s = respond (zext64 p) 0#48 s := by
  rw [exec, execAsInt, guarded_of_eq _ _ _ _ s (classifyWord_taggedWord .integer _ p rfl), payloadOf_taggedWord]

theorem exec_asCustom_taggedWord (p : Payload) (s : State) :
    exec (.asCustom (taggedWord 0xFFFE#16 p)) s = respond (zext64 p) 0#48 s := by
  rw [exec, execAsCustom, guarded_of_eq _ _ _ _ s (classifyWord_taggedWord .custom _ p rfl), payloadOf_taggedWord]

theorem exec_asBool_taggedWord (p : Payload) (s : State) :
    exec (.asBool (taggedWord 0xFFFB#16 p)) s = respond (if p = 0#48 then 0#64 else 1#64) 0#48 s := by
  rw [exec, execAsBool, guarded_of_eq _ _ _ _ s (classifyWord_taggedWord .bool _ p rfl), payloadTruth,
    payloadOf_taggedWord]

/-- ENC_BOOL's payload is zero for the operand 0 alone (R105). -/
theorem boolPayload_truth (a : Word) : boolPayload (truth a) = if a = 0#64 then 0#48 else 1#48 := by
  by_cases h : a = 0#64 <;> simp [boolPayload, truth, h]

/-- Settles O24: under the accessor's own tag the payload comes back. -/
theorem accessorRecoversTheEncodedPayload : Obligations.AccessorRecoversTheEncodedPayload := by
  intro a s
  refine ⟨_, _, _, _, _, _, _, _, _, _, _, _,
    ⟨rfl, rfl, exec_asInt_taggedWord (low48 a) _, rfl, zext64_low48_toNat a, rfl⟩,
    ⟨rfl, rfl, exec_asCustom_taggedWord (low48 a) _, rfl, zext64_low48_toNat a, rfl⟩,
    ⟨rfl, rfl, exec_asBool_taggedWord (boolPayload (truth a)) _, rfl, ?_, ?_, rfl⟩⟩
  all_goals
    rw [boolPayload_truth]
    by_cases h : a = 0#64 <;> simp [h]

/-! ## The word each encoder answers -/

/-- A legal request of an op other than ENC_STRING is the one with that op and its operand word alone (R84). -/
theorem decode_eq_word (q : Request) (op : BitVec 4) (hop : q.op = op) (hrsv : q.rsv = 0#17) (hstr : op ≠ 0x6#4) :
    decode q = decode (Request.word op q.a) :=
  decode_congr_of_a q _ hop rfl hrsv (hop ▸ hstr)

/-- The response with a tagged word, the tag and the payload written as an OR (R105, R106, R108). -/
theorem respond_taggedWord (t : BitVec 16) (p : Payload) (s : State) : respond (taggedWord t p) 0#48 s =
    .next { s with resp := some ⟨taggedWord t 0#48 ||| zext64 p, 0#48, .ok⟩ } := by
  rw [taggedWord_eq_or]
  rfl

/-- Settles O1: canonicalisation on numbers. -/
theorem encDoubleKeepsUpToBoundaryElseCanonNan : Obligations.EncDoubleKeepsUpToBoundaryElseCanonNan := by
  intro q s hop hrsv
  rw [decode_eq_word q _ hop hrsv (by decide), ← canonicalize_eq]
  rfl

/-- Settles O2: the three operations read no field. -/
theorem encNullUndefEmptyAreFixedWords : Obligations.EncNullUndefEmptyAreFixedWords := by
  refine fun q s hrsv => ⟨fun hop => ?_, fun hop => ?_, fun hop => ?_⟩
  · rw [decode_encNull q hop hrsv]
    rfl
  · rw [decode_encUndef q hop hrsv]
    rfl
  · rw [decode_encEmpty q hop hrsv]
    rfl

/-- Settles O3: the payload is the truth of the operand, and stands OR'd under the Bool tag. -/
theorem encBoolSetsOnlyPayloadBitZero : Obligations.EncBoolSetsOnlyPayloadBitZero := by
  intro q s hop hrsv
  have hbit : (if q.a = 0#64 then 0#64 else 1#64) = zext64 (boolPayload (truth q.a)) := by
    rw [boolPayload_truth]
    split <;> rfl
  rw [decode_eq_word q _ hop hrsv (by decide), hbit]
  exact respond_taggedWord _ _ s

/-- Settles O4: the payload stands OR'd under the Integer tag. -/
theorem encIntKeepsLow48BitsUnderItsTag : Obligations.EncIntKeepsLow48BitsUnderItsTag := by
  intro q s hop hrsv
  rw [decode_eq_word q _ hop hrsv (by decide)]
  exact respond_taggedWord _ (low48 q.a) s

/-- Settles O5: as ENC_INTEGER, under the Custom tag. -/
theorem encCustomKeepsLow48BitsUnderItsTag : Obligations.EncCustomKeepsLow48BitsUnderItsTag := by
  intro q s hop hrsv
  rw [decode_eq_word q _ hop hrsv (by decide)]
  exact respond_taggedWord _ (low48 q.a) s

/-- Settles O7: neither operation looks at its word. -/
theorem rawOperationsReturnTheWordUnchanged : Obligations.RawOperationsReturnTheWordUnchanged := by
  rintro q s (hop | hop) hrsv
  all_goals
    rw [decode_eq_word q _ hop hrsv (by decide)]
    rfl

end Sys2Proof.Machine

/-! # Proofs about the decoders: CLASSIFY and Decode, the accessors under their guards, and the contract violation
(41_decoders.md) -/

namespace Sys2Proof.Machine

/-! ## CLASSIFY -/

/-- The result of CLASSIFY, the code zero-extended, counts the tags from 0xFFF8 up (R32, R131). -/
theorem classify_result_toNat (w : Word) :
    ((classifyWord w).code.setWidth 64).toNat = w.toNat / 2 ^ 48 - 0xFFF8 :=
  (BitVec.toNat_setWidth_of_le (by decide)).trans (variantCodeIsTagMinusBoundaryTag w).1

/-- Settles O8: CLASSIFY always responds, and every word of a range has the range's tag. -/
theorem classifyAnswersTheCodeOfTheRange : Obligations.ClassifyAnswersTheCodeOfTheRange := by
  intro q s hop hrsv
  have hcode := classify_result_toNat q.a
  refine ⟨(classifyWord q.a).code.setWidth 64, ?_, ?_⟩
  · rw [decode_eq_word q _ hop hrsv (by decide)]
    exact execClassify_eq q.a s
  · simp only [← BitVec.toNat_inj, hcode, BitVec.toNat_ofNat]
    omega

/-! ## Decode -/

theorem decodeWord_of_double (w : Word) (h : classifyWord w = .double) : decodeWord w = (.double, w) := by
  simp [decodeWord, h]

theorem decodeWord_of_ne_double (w : Word) (h : classifyWord w ≠ .double) :
    decodeWord w = (classifyWord w, zext64 (payloadOf w)) := by
  simp [decodeWord, h]

/-- The variant of a word that is no Double has the word's tag (R33, R72). -/
theorem tag_classifyWord (w : Word) (h : classifyWord w ≠ .double) : (classifyWord w).tag = some (tagOf w) := by
  rcases classifyWord_cases w with ⟨-, hv⟩ | ⟨htag, hv⟩ | ⟨htag, hv⟩ | ⟨htag, hv⟩ | ⟨htag, hv⟩ |
    ⟨htag, hv⟩ | ⟨htag, hv⟩ | ⟨htag, hv⟩
  · exact absurd hv h
  all_goals
    rw [hv, htag]
    rfl

/-- Zero extension loses no bit of a payload (R10). -/
theorem zext64_injective : Function.Injective zext64 :=
  Function.LeftInverse.injective (g := BitVec.setWidth 48) fun p => by simp [zext64]

/-- Settles O11: a Double is its own second component; any other word is its variant's tag over its payload. -/
theorem decodedVariantAndPayloadDetermineTheWord : Obligations.DecodedVariantAndPayloadDetermineTheWord := by
  intro v w h
  have hclass : classifyWord v = classifyWord w := congrArg Prod.fst h
  by_cases hw : classifyWord w = .double
  · rw [decodeWord_of_double v (hclass.trans hw), decodeWord_of_double w hw] at h
    exact congrArg Prod.snd h
  · have hv : classifyWord v ≠ .double := hclass ▸ hw
    rw [decodeWord_of_ne_double v hv, decodeWord_of_ne_double w hw] at h
    have hpayload : payloadOf v = payloadOf w := zext64_injective (congrArg Prod.snd h)
    have htag : tagOf v = tagOf w := Option.some.inj <| by
      rw [← tag_classifyWord v hv, hclass, tag_classifyWord w hw]
    rw [← taggedWord_tagOf_payloadOf v, htag, hpayload, taggedWord_tagOf_payloadOf]

/-! ## Accessors under their guards -/

/-- An accessor on a word of its own tag gives the response of its rule, and changes nothing else (R132). -/
theorem guarded_of_tag (own : Variant) (t : BitVec 16) (w r : Word) (o : Payload) (s : State)
    (hown : own.tag = some t) (htag : tagOf w = t) :
    guarded own w r o s = .next { s with resp := some ⟨r, o, .ok⟩ } :=
  guarded_of_eq own w r o s (classifyWord_of_tag w own t hown htag)

/-- Settles O12: the guard holds by the tag, and the result is R133's. -/
theorem asBoolIsTrueIffPayloadNonzero : Obligations.AsBoolIsTrueIffPayloadNonzero := by
  intro q s hop hrsv htag
  rw [decode_eq_word q _ hop hrsv (by decide)]
  exact guarded_of_tag .bool _ q.a (payloadTruth q.a) _ s rfl htag

/-- Settles O13: the guard holds by the tag, and the result is the same for both accessors. -/
theorem asIntAndAsCustomZeroExtendThePayload : Obligations.AsIntAndAsCustomZeroExtendThePayload := by
  rintro q s hrsv (⟨hop, htag⟩ | ⟨hop, htag⟩)
  all_goals
    rw [decode_eq_word q _ hop hrsv (by decide)]
    exact guarded_of_tag _ _ q.a (zext64 (payloadOf q.a)) _ s rfl htag

/-- Settles O14: the lanes are UNPACK5 of the word. -/
theorem asStrCopiesFiveBytesAndATerminator : Obligations.AsStrCopiesFiveBytesAndATerminator := by
  intro q s hop hrsv htag
  refine ⟨unpack5 q.a, ?_, laneOut_unpack5 q.a, laneOut_unpack5_terminator q.a⟩
  rw [decode_asStr q hop hrsv]
  exact exec_asStr_of_tag q.a s htag

/-! ## A word of another variant -/

/-- A guarded accessor on a word whose code is not its own variant's violates the contract (R132). -/
theorem exec_of_wrong_variant (i : Instr) (own : Variant) (w : Word) (s : State) (hguard : i.guard = some (own, w))
    (hcode : (classifyWord w).code ≠ own.code) :
    exec i s = .next { s with
      resp := some ⟨Config.drawR s.draws, Config.drawSOut s.draws, .ok⟩
      contractViolated := true
      draws := s.draws + 1 } := by
  have hne : classifyWord w ≠ own := mt (congrArg Variant.code) hcode
  exact exec_of_not_guardHolds i s (by simp [Instr.guardHolds, hguard, hne])

/-- Settles O15: the four accessors differ in their guard alone; AS_RAW is O7's. -/
theorem wrongVariantGivesDrawsAndSetsTheMark : Obligations.WrongVariantGivesDrawsAndSetsTheMark := by
  refine fun q s hrsv => ⟨?_, fun hop => rawOperationsReturnTheWordUnchanged q s (.inr hop) hrsv⟩
  rintro (⟨hop, hcode⟩ | ⟨hop, hcode⟩ | ⟨hop, hcode⟩ | ⟨hop, hcode⟩)
  all_goals
    rw [decode_eq_word q _ hop hrsv (by decide)]
    exact exec_of_wrong_variant _ _ q.a s rfl hcode

/-! ## AS_STRING of an encoded string -/

/-- UNPACK5 of the word that PACK5 makes gives the text back, zero past its end (R53, R54). -/
theorem laneOut_unpack5_pack5 (t : BitVec 16) (l : Lanes) (n : BitVec 3) (i : Nat) (hi : i < 6) :
    laneOut (unpack5 (taggedWord t (pack5 l n))) i = (textOf l n).getD i 0#8 := by
  by_cases hlane : i < 5
  · rw [laneOut_unpack5 _ i hlane, taggedWord_byte _ _ i hi, pack5, placeBytes_byte _ i hi]
  · obtain rfl : i = 5 := by omega
    have hlen : (textOf l n).length ≤ 5 := (textOf_length_le l n).trans (laneCount_le n)
    rw [laneOut_unpack5_terminator, List.getD_eq_default _ _ hlen]

/-- Settles O25: the encoded word has the String tag, so the guard holds and the mark stays. -/
theorem asStrRecoversTheTextZeroPadded : Obligations.AsStrRecoversTheTextZeroPadded := by
  intro n l s
  exact ⟨_, _, _, _, rfl, rfl, exec_asStr_of_tag (taggedWord 0xFFFD#16 (pack5 l n)) _ (tagOf_taggedWord _ _), rfl,
    laneOut_unpack5_pack5 _ l n, rfl, rfl, rfl⟩

end Sys2Proof.Machine

/-! # Proofs about exceptions: the illegal request, the status, the order of requests, the contract-violation mark, and
that nothing stops the machine (60_exceptions.md) -/

namespace Sys2Proof.Machine

/-! ## The status of a response -/

/-- Settles O16: an illegal request decodes to the reserved row, whose response is R161's. -/
theorem illegalRequestAnswersZeroAndItsStatus : Obligations.IllegalRequestAnswersZeroAndItsStatus := by
  intro q s h
  rw [decode_of_illegal q (q.illegal_iff.mpr h)]
  rfl

/-- An outcome that is a response with status 0b00 (R100, R130, R163). -/
def RespondsOk (o : Host.Outcome State Fault Refusal) : Prop :=
  ∃ (t : State) (p : Response), o = .next t ∧ t.resp = some p ∧ p.status = .ok

theorem respondsOk_respond (r : Word) (o : Payload) (s : State) : RespondsOk (respond r o s) :=
  ⟨_, _, rfl, rfl, rfl⟩

/-- A contract violation is no illegal request: its status is 0b00 as well (R163). -/
theorem respondsOk_violateContract (s : State) : RespondsOk (violateContract s) :=
  ⟨_, _, rfl, rfl, rfl⟩

theorem respondsOk_guarded (own : Variant) (w r : Word) (o : Payload) (s : State) :
    RespondsOk (guarded own w r o s) := by
  by_cases h : classifyWord w = own
  · rw [guarded_of_eq own w r o s h]
    exact respondsOk_respond r o s
  · rw [guarded_of_ne own w r o s h]
    exact respondsOk_violateContract s

/-- Every operation of the table but the reserved row answers status 0b00, in every state (R162). -/
theorem exec_respondsOk (i : Instr) (s : State) (h : ∀ op rsv, i ≠ .reserved op rsv) : RespondsOk (exec i s) := by
  cases i
  case reserved op rsv => exact absurd rfl (h op rsv)
  case classify w =>
    have hexec : exec (.classify w) s = respond ((classifyWord w).code.setWidth 64) 0#48 s := execClassify_eq w s
    rw [hexec]
    exact respondsOk_respond _ _ s
  case asBool w => exact respondsOk_guarded .bool w _ _ s
  case asInt w => exact respondsOk_guarded .integer w _ _ s
  case asCustom w => exact respondsOk_guarded .custom w _ _ s
  case asStr w => exact respondsOk_guarded .string w _ _ s
  all_goals exact respondsOk_respond _ _ s

/-- Settles O17: an illegal request is O16's, and a legal one decodes to an operation that answers status 0b00. -/
theorem statusTellsLegalFromIllegal : Obligations.StatusTellsLegalFromIllegal := by
  intro q s
  by_cases h : q.op = 0xF#4 ∨ q.rsv ≠ 0#17
  · exact ⟨_, _, illegalRequestAnswersZeroAndItsStatus q s h, rfl, fun _ => rfl, fun hlegal => absurd h hlegal⟩
  · have hlegal : q.illegal = false := Bool.eq_false_iff.mpr (mt q.illegal_iff.mp h)
    obtain ⟨t, p, hexec, hresp, hok⟩ := exec_respondsOk (decode q) s (decode_of_legal q hlegal).1
    exact ⟨t, p, hexec, hresp, fun hill => absurd hill h, fun _ => congrArg Status.code hok⟩

/-! ## The order of two requests -/

/-- Settles O20: under its guard each instruction has one response, the same in every state. -/
theorem orderOfTwoRequestsChangesNoResponse : Obligations.OrderOfTwoRequestsChangesNoResponse := by
  intro i j s hi hj
  obtain ⟨p, -, hexeci⟩ := (exec_by_guard i).1 hi
  obtain ⟨r, -, hexecj⟩ := (exec_by_guard j).1 hj
  exact ⟨_, _, _, _, hexeci s, hexecj _, hexecj s, hexeci _, rfl, rfl⟩

/-! ## No step stops the machine -/

theorem step_of_no_agent (s : State) (hc : s.current = none) : step s = .next s.pass := by
  simp only [step, hc]

/-- One action of an agent always ends in a next state, whatever its phase (R160). -/
theorem act_next (a : Agent) (s : State) : ∃ t : State, act a s = .next t := by
  unfold act
  cases a.phase with
  | ready => exact ⟨_, rfl⟩
  | loading addr got d => exact ⟨_, rfl⟩
  | presenting q reply =>
    obtain ⟨_, _, _, -, -, -, -, hserve⟩ := serve_next q reply a s
    exact ⟨_, hserve⟩
  | storing addr lanes => exact ⟨_, rfl⟩

/-- Settles O41: the turn passes when no agent has it, and an agent's action has a next state. -/
theorem stepNeverStops : Obligations.StepNeverStops := by
  intro s
  cases hc : s.current with
  | none => exact ⟨_, step_of_no_agent s hc⟩
  | some a =>
    obtain ⟨t, hact⟩ := act_next a s
    exact ⟨t, by simpa only [step, hc] using hact⟩

/-! ## The contract-violation mark -/

theorem callerObeys_of_no_agent (s : State) (hc : s.current = none) : s.callerObeys = true := by
  simp only [State.callerObeys, hc]

/-- An agent that presents no request breaks no contract (R185). -/
theorem callerObeys_of_not_presenting (s : State) (a : Agent) (hc : s.current = some a)
    (hq : ∀ q reply, a.phase ≠ .presenting q reply) : s.callerObeys = true := by
  obtain ⟨vars, pc, st, prog, phase⟩ := a
  cases phase with
  | presenting q reply => exact absurd rfl (hq q reply)
  | ready | loading | storing => simp only [State.callerObeys, hc]

theorem callerObeys_of_presenting (s : State) (a : Agent) (q : Request) (reply : Reply) (hc : s.current = some a)
    (hq : a.phase = .presenting q reply) : s.callerObeys = (decode q).guardHolds := by
  simp only [State.callerObeys, hc, hq]

/-- exec sets the mark exactly when the guard fails, and never clears it (R164). -/
theorem exec_contractViolated_iff (i : Instr) (s t : State) (h : exec i s = .next t) :
    t.contractViolated = true ↔ s.contractViolated = true ∨ i.guardHolds = false := by
  cases hg : i.guardHolds with
  | true =>
    obtain ⟨p, -, hexec⟩ := (exec_by_guard i).1 hg
    rw [hexec s] at h
    cases h
    simp
  | false =>
    rw [exec_of_not_guardHolds i s hg] at h
    cases h
    simp

/-- Settles O42, by the kind of the step: only a served request can set the mark, and exec says when it does. -/
theorem markIsSetExactlyByABrokenContract : Obligations.MarkIsSetExactlyByABrokenContract := by
  intro s t h
  cases step_kind s t h with
  | idle hc ht => simp [ht, callerObeys_of_no_agent s hc]
  | host a u hc hq hu ht => simp [ht, hu.contractViolated, callerObeys_of_not_presenting s a hc hq]
  | served a q reply p cv n hc hq _ _ _ hexec ht =>
    have hmark := exec_contractViolated_iff (decode q) s _ hexec
    rw [ht, State.pass_contractViolated, callerObeys_of_presenting s a q reply hc hq]
    exact hmark

end Sys2Proof.Machine

/-! # Proofs about the reset state (70_reset_and_hazards.md, and the harness's start of 95_test_vectors.md) -/

namespace Sys2Proof.Machine

/-- No byte is listed, so each reads as the harness starts it (log 8). -/
@[simp] theorem Memory.read_nil (x : Nat) : Memory.read [] x = 0#8 := rfl

theorem Memory.wf_nil : Memory.wf [] := ⟨List.Pairwise.nil, List.forall_mem_nil _⟩

@[simp] theorem Agent.init_getVar (v : VarId) : Agent.init.getVar v = 0#64 := by
  revert v
  decide

/-- Reset has one agent (log 12): what holds of the harness's start holds of every agent. -/
theorem State.forall_mem_reset_agents {p : Agent → Prop} : (∀ a ∈ State.reset.agents, p a) ↔ p Agent.init :=
  List.forall_mem_singleton

/-- Settles O38: the memory lists no byte, and the one agent is the harness's start. -/
theorem resetHasNoResponseAndTheHarnessStart : Obligations.ResetHasNoResponseAndTheHarnessStart :=
  ⟨rfl, rfl, Memory.read_nil, State.forall_mem_reset_agents.mpr ⟨rfl, rfl, rfl, Agent.init_getVar⟩⟩

/-- Settles O39: the memory lists no byte, the one agent is ready and has the turn, and there is no response. -/
theorem resetMeetsTheMachineInvariant : Obligations.ResetMeetsTheMachineInvariant where
  mem := Memory.wf_nil
  phases := State.forall_mem_reset_agents.mpr rfl
  turn _ := Nat.zero_lt_one
  resp _ hp := nomatch hp

end Sys2Proof.Machine

/-! # Proofs about the commands that move values and control (95_test_vectors.md L3) -/

namespace Sys2Proof.Machine

/-- Passing the turn changes the turn and the draw counter alone (log 11). -/
theorem State.pass_frame (s : State) : ∃ n m : Nat, s.pass = { s with turn := n, draws := m } := by
  unfold State.pass
  split
  case isTrue => exact ⟨0, s.draws, rfl⟩
  case isFalse => exact ⟨_, _, rfl⟩

/-- Writing back the agent that has the turn changes nothing. -/
theorem State.setAgent_current (s : State) (a : Agent) (hc : s.current = some a) : s.setAgent a = s := by
  obtain ⟨hlt, rfl⟩ := State.current_eq_some s a hc
  rw [State.setAgent, List.set_getElem_self]

/-- A command that only writes its own agent: the whole next state, up to the turn and its draw. -/
theorem step_of_ready_setAgent_frame (s : State) (a b : Agent) (c : Command) (hc : s.current = some a)
    (hr : a.phase = .ready) (hcmd : a.prog[a.pc]? = some c) (hrun : runCommand c a s = s.setAgent b) :
    ∃ n m : Nat, step s = .next { s with agents := s.agents.set s.turn b, turn := n, draws := m } := by
  obtain ⟨n, m, hpass⟩ := (s.setAgent b).pass_frame
  exact ⟨n, m, by rw [step_of_ready s a c hc hr hcmd, hrun, hpass]; rfl⟩

/-- `beq` compares for equality (95 L3). -/
theorem branch_beq (x y : Word) (t : Nat) (a : Agent) :
    branch (x == y) t a = if x = y then { a with pc := t } else a.advance := by
  simp only [branch, beq_iff_eq]

/-- `bne` compares for inequality (95 L3). -/
theorem branch_bne (x y : Word) (t : Nat) (a : Agent) :
    branch (x != y) t a = if x ≠ y then { a with pc := t } else a.advance := by
  simp only [branch, bne_iff_ne]

/-- Settles O47: each of the six commands only writes its own agent; `halt` writes it back unchanged. -/
theorem harnessMovesAndBranches : Obligations.HarnessMovesAndBranches := by
  intro s a c hc hr hcmd a' heffect
  refine step_of_ready_setAgent_frame s a a' c hc hr hcmd ?_
  rcases heffect with ⟨d, k, rfl, rfl⟩ | ⟨d, v, k, rfl, rfl⟩ | ⟨x, y, t, rfl, rfl⟩ | ⟨x, y, t, rfl, rfl⟩ |
    ⟨t, rfl, rfl⟩ | ⟨rfl, rfl⟩
  · rfl
  · rfl
  · exact congrArg s.setAgent (branch_beq _ _ _ _)
  · exact congrArg s.setAgent (branch_bne _ _ _ _)
  · rfl
  · exact (s.setAgent_current a' hc).symm

end Sys2Proof.Machine
